-- ==== Sys2Proof/Word.lean ====
section
/-! DEFINITION. The word types of the Xoshiro256+ buffered PRNG engine and the engine's four state words. -/

namespace Sys2Proof

/-- A buffer slot, a response word, a seed offset (10_state.md R22, 30_encoding.md R71, R76). -/
abbrev Word32 := BitVec 32

/-- One engine state word (10_state.md R20). -/
abbrev Word64 := BitVec 64

/-- The 34-bit command word `cmd[33:0]` (30_encoding.md R70). -/
abbrev Command := BitVec 34

/-- The engine state words `s0..s3`, written `x[0]..x[3]` in the spec's pseudocode (10_state.md R20). -/
structure Engine where
  s0 : Word64
  s1 : Word64
  s2 : Word64
  s3 : Word64
  deriving DecidableEq, Repr, Inhabited

/-- The all-zero engine state (41_xoshiro_engine.md R145). -/
def Engine.zero : Engine := ⟨0, 0, 0, 0⟩

end Sys2Proof
end

