-- ==== Sys2Proof/Machine/State.lean ====
section
/-! DEFINITION. The state of the block as plain data, what can stop it, and the state after reset (10_state.md). -/

namespace Sys2Proof.Machine

/-- The kind `k` of the read that triggered a refill (10_state.md R27). -/
inductive ReadKind where
  | u32
  | f32
  deriving DecidableEq, Repr

/-- The controller state `ctl` (10_state.md R27). -/
inductive Ctl where
  /-- The block accepts a command. -/
  | idle
  /-- `REFILL(i, k)`: slots 0..i−1 of the new fill are written and the read of kind `k` is pending. -/
  | refill (i : Nat) (k : ReadKind)
  deriving DecidableEq, Repr

/-- One thing the host does (60_exceptions.md R212). The host's inputs stand in the state as a list (log entry 7). -/
inductive HostInput where
  /-- Present a command word on the command port, and hold it there until the block accepts it. -/
  | cmd (w : Command)
  /-- Assert reset (70_reset_and_hazards.md R220). -/
  | reset
  /-- Do nothing for one step (log entry 8). -/
  | wait
  deriving DecidableEq, Repr

/-- The buffer `Buf` with its validity bits: the valid slots' numbers and words, by rising slot number. Slot `j` has
`Valid[j] = 1` exactly when it is listed (10_state.md R22, R25, log entry 4). -/
abbrev Memory := List (Nat × Word32)

/-- What stops the model with a fault (60_exceptions.md R201, R202). -/
inductive Fault where
  /-- `UNSEEDED_READ`: raised by RDU32 and RDF32 when `seeded = 0`, with the command word. Safe: hardware may return some
  word (93_implementation_defined.md U1, log entry 5). -/
  | unseededRead (cmd : Command)
  /-- `UNWRITTEN_SLOT`: raised by any read of slot `j` with `Valid[j] = 0`, never in a reachable state. Safe: a check on
  the model (10_state.md R25, log entry 4). -/
  | unwrittenSlot (j : Nat)
  deriving DecidableEq, Repr

/-- What the model gives no meaning to (60_exceptions.md R201, R203). -/
inductive Refusal where
  /-- An instruction without a meaning: raised by no arm of `exec` now. Safe: nothing can be proved of it. -/
  | notModelled (mnemonic : String)
  /-- `RESERVED_OP`: raised at decode by a command word with `op = 11`. Safe (30_encoding.md R74, log entry 6). -/
  | reservedOp (cmd : Command)
  /-- `NONZERO_ARG`: raised at decode by a read command word with `arg ≠ 0`. Safe (30_encoding.md R73, log entry 6). -/
  | nonzeroArg (cmd : Command)
  deriving DecidableEq, Repr

/-- The state of the block and of its two ports (10_state.md R20 to R27, 30_encoding.md R70, R76). -/
structure State where
  /-- The engine state words `s0..s3` (R20). -/
  x : Engine
  /-- The buffer and its validity bits (R22, R25). -/
  buf : Memory
  /-- The cursor `idx` (R23). -/
  idx : Nat
  /-- The flag and status output `seeded` (R26, R29). -/
  seeded : Bool
  /-- The controller state (R27). -/
  ctl : Ctl
  /-- What the host has still to do, the next first: the command port and the reset signal (R70, R212). -/
  inputs : List HostInput
  /-- The words placed on the response port, in acceptance order (R76, R230). -/
  responses : List Word32
  deriving DecidableEq, Repr

/-- The state right after reset (10_state.md R32, 70_reset_and_hazards.md R220). The spec gives `s0..s3` and `idx` no value;
the zeros are the model's (DESIGN CHOICE, log entries 2 and 3). -/
def State.reset : State where
  x := Engine.zero
  buf := []
  idx := 0
  seeded := false
  ctl := .idle
  inputs := []
  responses := []

end Sys2Proof.Machine
end

