-- ==== Sys2Proof/Machine/Ops.lean ====
section
/-! DEFINITION. The named operations on the buffer and on the state's fields, and the one way to stop with a fault. -/

namespace Sys2Proof.Machine

/-- What one step answers. -/
abbrev Result := Host.Outcome State Fault Refusal

/-- The canonical form: slot numbers strictly rising, so that equal buffers are equal lists. An unlisted slot has no
value, so no entry can repeat one. -/
abbrev Memory.wf (m : Memory) : Prop := m.Pairwise fun a b => a.1 < b.1

/-- The word of slot `j`, `none` when `Valid[j] = 0` (10_state.md R25). -/
def Memory.read : Memory → Nat → Option Word32
  | [], _ => none
  | (a, w) :: rest, j => if j = a then some w else Memory.read rest j

/-- `MemWrite(j, 4, v)` together with `Valid[j] <- 1` (00_scope.md R10, 40_buffered_source.md R121). -/
def Memory.write : Memory → Nat → Word32 → Memory
  | [], j, v => [(j, v)]
  | (a, w) :: rest, j, v =>
    if j < a then (j, v) :: (a, w) :: rest
    else if j = a then (j, v) :: rest
    else (a, w) :: Memory.write rest j v

/-- `Valid[j]` (10_state.md R25). -/
def State.valid (s : State) (j : Nat) : Bool := (s.buf.read j).isSome

/-- `x <- e`: all four state words in one step (20_memory.md R53). -/
def State.setX (s : State) (e : Engine) : State := { s with x := e }

/-- `MemWrite(j, 4, v)` and `Valid[j] <- 1` on the state. -/
def State.writeSlot (s : State) (j : Nat) (v : Word32) : State := { s with buf := s.buf.write j v }

/-- `idx <- n`. -/
def State.setIdx (s : State) (n : Nat) : State := { s with idx := n }

/-- `ctl <- c`. -/
def State.setCtl (s : State) (c : Ctl) : State := { s with ctl := c }

/-- The host's inputs after some were taken. -/
def State.setInputs (s : State) (l : List HostInput) : State := { s with inputs := l }

/-- `respond(v)`: place a word on the response port (00_scope.md R10). -/
def State.respond (s : State) (v : Word32) : State := { s with responses := s.responses ++ [v] }

/-- `raise Fault(reason)`: the model stops (00_scope.md R10, 60_exceptions.md R202). There is no exception entry: no state
is saved, no mode changes and no vector is taken (60_exceptions.md R207). -/
def raiseFault (f : Fault) : Result := .fault f

/-- `refuse(reason)`: the run is refused (60_exceptions.md R203). -/
def refuse (r : Refusal) : Result := .refused r

/-- `v <- MemRead(j, 4)`, then `k v`; a slot with `Valid[j] = 0` raises `UNWRITTEN_SLOT` (10_state.md R25). -/
def readSlot (s : State) (j : Nat) (k : Word32 → Result) : Result :=
  match s.buf.read j with
  | some v => k v
  | none => raiseFault (.unwrittenSlot j)

/-- Asserting reset: the block goes to the state of 10_state.md R32 whatever it was doing, a refill included
(70_reset_and_hazards.md R220, R221). What the host has still to do and the words it has already received are not the block's
to forget (log entry 9). -/
def State.assertReset (s : State) (rest : List HostInput) : State :=
  { State.reset with inputs := rest, responses := s.responses }

end Sys2Proof.Machine
end

