-- ==== Sys2Proof/Machine/Flags.lean ====
section
/-! DEFINITION. The two status outputs. The block has no flags and no condition codes (10_state.md R29). -/

namespace Sys2Proof.Machine

/-- The output `busy`: 1 exactly when `ctl ≠ IDLE` (10_state.md R27). -/
def State.busy (s : State) : Bool :=
  match s.ctl with
  | .idle => false
  | .refill _ _ => true

/-- `seeded <- 1`: INIT sets it and nothing but reset clears it (10_state.md R26). -/
def State.setSeeded (s : State) : State := { s with seeded := true }

end Sys2Proof.Machine
end

