-- ==== Sys2Proof/Config.lean ====
section
/-! DEFINITION. The build parameters of 00_scope.md R7 and the built machine's own, which the model leaves open. -/

namespace Sys2Proof

/-- `OUT_SEL`: which 32 bits of the 64-bit engine output fill a slot (00_scope.md R7, R11). -/
inductive OutSel where
  | low32
  | high32
  deriving DecidableEq, Repr, Inhabited

/-- `F32_MODE`: the rounding of the binary32 result (00_scope.md R7, 40_buffered_source.md R112). -/
inductive F32Mode where
  /-- Round to nearest, ties to even. -/
  | rne
  /-- Round toward zero. -/
  | rtz
  deriving DecidableEq, Repr, Inhabited

/-- The parameters of 00_scope.md R7. "A model takes each as an argument": every operation of the machine takes
one `Params`. They are fixed when the block is built and are no part of its state (10_state.md R30). A parameter the table
gives a value for has that value unless a build says otherwise; `BASE_SEED` and `SEED_EXPAND` are OPEN and have none. -/
structure Params where
  /-- `CAP`, the number of buffer slots, 256 by default. -/
  cap : Nat := 256
  /-- `BASE_SEED`. -/
  baseSeed : Word32
  /-- `SEED_EXPAND`, the OPEN seeding function (41_xoshiro_engine.md R147, R148). -/
  seedExpand : Word32 → Engine
  /-- `OUT_SEL`, LOW32 by default (92_eei_decisions.md D5). -/
  outSel : OutSel := .low32
  /-- `F32_MODE`, RNE by default (92_eei_decisions.md D6). -/
  f32Mode : F32Mode := .rne

/-- `IDX_W = ceil(log2(CAP + 1))`, the cursor's width: the bits that the numbers 0..CAP need (00_scope.md R7). -/
def Params.idxWidth (p : Params) : Nat := Nat.log2 p.cap + 1

namespace Config

/-- OPEN (log entry 1): `CAP − 1` of the built machine, so that `1 ≤ CAP ≤ 2^32 − 1` (00_scope.md R7, 90_conflicts.md C5).
The spec's default, 256, is `Params.cap`'s and is one of its values. -/
opaque capLessOne : Fin 4294967295

/-- OPEN (log entry 1): the value of `baseSeed` is in no source (91_not_in_source.md N4, 92_eei_decisions.md D8). -/
opaque baseSeed : Word32

/-- OPEN (log entry 1): the secondary seeding generator is in no source (91_not_in_source.md N3, 92_eei_decisions.md D9). -/
opaque seedExpand : Word32 → Engine

/-- A build parameter left free (log entry 1); the spec's default is LOW32 (92_eei_decisions.md D5). -/
opaque outSel : OutSel

/-- A build parameter left free (log entry 1); the spec's default is RNE (92_eei_decisions.md D6). -/
opaque f32Mode : F32Mode

/-- The parameters the machine of `Sys2Proof.core` was built with: no proof can see which. -/
def build : Params where
  cap := capLessOne.val + 1
  baseSeed := baseSeed
  seedExpand := seedExpand
  outSel := outSel
  f32Mode := f32Mode

/-- The build with the values that the table of 00_scope.md R7 gives: CAP 256, OUT_SEL LOW32, F32_MODE RNE, over the two OPEN
parameters. Its block is `stepWith Config.defaultBuild`. -/
def defaultBuild : Params where
  baseSeed := baseSeed
  seedExpand := seedExpand

end Config
end Sys2Proof
end

