-- ==== Sys2Proof/Machine/Operands.lean ====
section
/-! DEFINITION. The bit selections and the one operand form of the commands (00_scope.md R11, 40_buffered_source.md R101). -/

namespace Sys2Proof.Machine

/-- `low32(v) = v[31:0]` (00_scope.md R11). -/
def low32 (v : Word64) : Word32 := v.extractLsb' 0 32

/-- `high32(v) = v[63:32]` (00_scope.md R11). -/
def high32 (v : Word64) : Word32 := v.extractLsb' 32 32

/-- `sel32(v)`, the half that `OUT_SEL` keeps (00_scope.md R11). -/
def sel32 (p : Params) (v : Word64) : Word32 :=
  match p.outSel with
  | .low32 => low32 v
  | .high32 => high32 v

/-- `seed_of(a) = (BASE_SEED + a) mod 2^32`: INIT's operand `a` is taken with no extension, scaling or shift
(30_encoding.md R71, 40_buffered_source.md R101). -/
def seedOf (p : Params) (a : Word32) : Word32 := p.baseSeed + a

end Sys2Proof.Machine
end

