-- ==== Sys2Proof/Machine/Init.lean ====
section
/-! DEFINITION. INIT (40_buffered_source.md R100 to R102). -/

namespace Sys2Proof.Machine

/-- `INIT(a)` for a build `p`: the engine words from `SEED_EXPAND(seed_of(a))`, the buffer exhausted, `seeded` set; the slots
and their validity stay (R100, R102). One atomic step (92_eei_decisions.md D22). -/
def initWith (p : Params) (a : Word32) (s : State) : Result :=
  .next (((s.setX (p.seedExpand (seedOf p a))).setIdx p.cap).setSeeded)

/-- INIT on the built machine. -/
def execInit (a : Word32) (s : State) : Result := initWith Config.build a s

end Sys2Proof.Machine
end

