-- ==== Sys2Proof/Machine/Engine.lean ====
section
/-! DEFINITION. The Xoshiro256+ engine: output, state transition, its inverse, its iterates (41_xoshiro_engine.md). -/

namespace Sys2Proof.Machine

/-- `rotl64(a, n) = (a << n) | (a >> (64 − n))` for 1 ≤ n ≤ 63 (00_scope.md R9). -/
def rotl64 (a : Word64) (n : Nat) : Word64 := (a <<< n) ||| (a >>> (64 - n))

/-- `out64(s) = s0 + s3` modulo 2^64 (41_xoshiro_engine.md R141). -/
def out64 (s : Engine) : Word64 := s.s0 + s.s3

/-- The state transition `T` (41_xoshiro_engine.md R142): each assignment sees the results of the ones before it. -/
def T (s : Engine) : Engine :=
  let t := s.s1 <<< 17
  let s2 := s.s2 ^^^ s.s0
  let s3 := s.s3 ^^^ s.s1
  let s1 := s.s1 ^^^ s2
  let s0 := s.s0 ^^^ s3
  let s2 := s2 ^^^ t
  let s3 := rotl64 s3 45
  ⟨s0, s1, s2, s3⟩

/-- The inverse of `T` (41_xoshiro_engine.md R144). -/
def Tinv (a : Engine) : Engine :=
  let u := rotl64 a.s3 19
  let s0 := a.s0 ^^^ u
  let y := a.s1 ^^^ a.s2
  let s1 := y ^^^ (y <<< 17) ^^^ (y <<< 34) ^^^ (y <<< 51)
  let s3 := u ^^^ s1
  let s2 := a.s1 ^^^ s1 ^^^ s0
  ⟨s0, s1, s2, s3⟩

/-- `T^n(s)`. -/
def iterT : Nat → Engine → Engine
  | 0, s => s
  | n + 1, s => iterT n (T s)

/-- The word `w_n = sel32(out64(T^n(s)))` of the stream that starts at `s` (40_buffered_source.md R125). -/
def streamWord (p : Params) (s : Engine) (n : Nat) : Word32 := sel32 p (out64 (iterT n s))

/-- `a xor b` word by word (41_xoshiro_engine.md R146). -/
def xorEngine (a b : Engine) : Engine :=
  ⟨a.s0 ^^^ b.s0, a.s1 ^^^ b.s1, a.s2 ^^^ b.s2, a.s3 ^^^ b.s3⟩

end Sys2Proof.Machine
end

