-- ==== Sys2Proof/Syntax.lean ====
section
/-! DEFINITION. The commands, one constructor per row of spec/opcode_table.json (30_encoding.md R72). -/

namespace Sys2Proof

/-- The three commands of the block. -/
inductive Instr where
  /-- `INIT a`: seed the generator from the 32-bit offset `a` (40_buffered_source.md R100). -/
  | init (a : Word32)
  /-- `RDU32`: return the next 32-bit value (40_buffered_source.md R110). -/
  | rdu32
  /-- `RDF32`: return the next value as a binary32 number (40_buffered_source.md R111). -/
  | rdf32
  deriving DecidableEq, Repr

end Sys2Proof
end

