-- ==== Sys2Proof/Decode.lean ====
section
/-! DEFINITION. Decoding a command word, total, the illegal forms by name; then the encoder and the opcode table
(30_encoding.md R70 to R75). -/

namespace Sys2Proof

/-- `op = cmd[33:32]` (30_encoding.md R70). -/
def opField (c : Command) : BitVec 2 := c.extractLsb' 32 2

/-- `arg = cmd[31:0]` (30_encoding.md R70, R71). -/
def argField (c : Command) : Word32 := c.extractLsb' 0 32

/-- Why a command word spells no command (30_encoding.md R73, R74). -/
inductive Illegal where
  | nonzeroArg
  | reservedOp
  deriving DecidableEq, Repr

/-- What a command word decodes to (30_encoding.md R75). -/
inductive Decoded where
  | instr (i : Instr)
  | illegal (why : Illegal)
  deriving DecidableEq, Repr

/-- `decode(cmd)` of 30_encoding.md R75, its tests in the spec's order. -/
def decode (c : Command) : Decoded :=
  if opField c = 0b00#2 then .instr (.init (argField c))
  else if opField c = 0b11#2 then .illegal .reservedOp
  else if argField c ≠ 0 then .illegal .nonzeroArg
  else if opField c = 0b01#2 then .instr .rdu32
  else .instr .rdf32

/-- The command word with the fields `op` and `arg`: `(op << 32) | arg` (30_encoding.md R70, R78). -/
def commandWord (op : BitVec 2) (arg : Word32) : Command := (op.setWidth 34 <<< 32) ||| arg.setWidth 34

/-- The command word of a command (30_encoding.md R72, R78). -/
def encode : Instr → Command
  | .init a => commandWord 0b00#2 a
  | .rdu32 => commandWord 0b01#2 0
  | .rdf32 => commandWord 0b10#2 0

/-- One row of the match and mask table (30_encoding.md R72). -/
structure OpcodeRow where
  mnemonic : String
  pattern : Command
  mask : Command
  deriving DecidableEq, Repr

/-- A word belongs to a row when its masked bits are the row's match value. -/
def OpcodeRow.holds (r : OpcodeRow) (c : Command) : Bool := c &&& r.mask == r.pattern

/-- The row of each command (30_encoding.md R72, spec/opcode_table.json). -/
def opcodeRow : Instr → OpcodeRow
  | .init _ => ⟨"INIT", 0x000000000#34, 0x300000000#34⟩
  | .rdu32 => ⟨"RDU32", 0x100000000#34, 0x3FFFFFFFF#34⟩
  | .rdf32 => ⟨"RDF32", 0x200000000#34, 0x3FFFFFFFF#34⟩

/-- The command word whose bits are the number `w`, if the port's 34 wires can carry it: bit i of the number is wire i
(20_memory.md R54). A number with a bit above 33 is no command word (log entry 16). -/
def commandOfBits (w : Nat) : Option Command :=
  if w < 2 ^ 34 then some (BitVec.ofNat 34 w) else none

/-- The instruction the decoder reads from the bits `w`, numbered as spec/opcode_table.json numbers them. The one
format is 34 bits long, so `nbits`, the row's length in whole bytes, adds nothing to read. -/
def decodeTableWord (_nbits w : Nat) : Option Instr :=
  match commandOfBits w with
  | none => none
  | some c =>
    match decode c with
    | .instr i => some i
    | .illegal _ => none

end Sys2Proof
end

