-- ==== Sys2Proof/Machine/Float.lean ====
section
/-! DEFINITION. The conversion `f32bits` of RDF32 (40_buffered_source.md R112). -/

namespace Sys2Proof.Machine

/-- `((e + 95) << 23) | (q mod 2^23)`: sign 0, biased exponent `e − 32 + 127`, the fraction of the 24-bit significand `q`. -/
def packF32 (e q : Nat) : Word32 := BitVec.ofNat 32 (((e + 95) <<< 23) ||| (q % 2 ^ 23))

/-- Whether `q`, with `r` of `2^sh` left over, is rounded up: under RNE when `r` is over half, or half with `q` odd. -/
def roundsUp (m : F32Mode) (q r sh : Nat) : Bool :=
  match m with
  | .rne => decide (2 ^ (sh - 1) < r ∨ (r = 2 ^ (sh - 1) ∧ q % 2 = 1))
  | .rtz => false

/-- `u >> sh`, rounded under the mode by the `sh` bits shifted out. -/
def roundShift (m : F32Mode) (n sh : Nat) : Nat :=
  if roundsUp m (n >>> sh) (n % 2 ^ sh) sh then (n >>> sh) + 1 else n >>> sh

/-- `f32bits(u)`: the binary32 encoding of `u × 2^−32`, rounded under `F32_MODE`. -/
def f32bits (m : F32Mode) (u : Word32) : Word32 :=
  let n := u.toNat
  let e := Nat.log2 n
  if n = 0 then 0
  else if e ≤ 23 then packF32 e (n <<< (23 - e))
  else
    let q := roundShift m n (e - 23)
    if q = 2 ^ 24 then packF32 (e + 1) (2 ^ 23) else packF32 e q

end Sys2Proof.Machine
end

