-- ==== Sys2Proof/Machine/Reads.lean ====
section
/-! DEFINITION. The two reads, RDU32 and RDF32 (40_buffered_source.md R110, R111). -/

namespace Sys2Proof.Machine

/-- The word a read of kind `k` places on the response port for the slot value `v` (R110, R111, 30_encoding.md R76). -/
def answer (p : Params) (k : ReadKind) (v : Word32) : Word32 :=
  match k with
  | .u32 => v
  | .f32 => f32bits p.f32Mode v

/-- The read command of each kind. -/
def readInstr : ReadKind → Instr
  | .u32 => .rdu32
  | .f32 => .rdf32

/-- A read of kind `k` (R110, R111): the fault before any INIT; the next slot while one is left; otherwise the start of a
refill, which completes the read (R120 to R122). -/
def readWith (p : Params) (k : ReadKind) (s : State) : Result :=
  if s.seeded = false then raiseFault (.unseededRead (encode (readInstr k)))
  else if s.idx < p.cap then
    readSlot s s.idx fun v => .next ((s.setIdx (s.idx + 1)).respond (answer p k v))
  else .next (s.setCtl (.refill 0 k))

/-- RDU32 on the built machine (R110). -/
def execRdu32 (s : State) : Result := readWith Config.build .u32 s

/-- RDF32 on the built machine (R111). -/
def execRdf32 (s : State) : Result := readWith Config.build .f32 s

end Sys2Proof.Machine
end

