-- ==== Sys2Proof/Machine/Refill.lean ====
section
/-! DEFINITION. The batch refill controller (40_buffered_source.md R120 to R124). -/

namespace Sys2Proof.Machine

/-- `REFILL_STEP(i, k)`: slot `i` takes the output of the state before its transition (R121). -/
def refillStep (p : Params) (i : Nat) (k : ReadKind) (s : State) : State :=
  ((s.writeSlot i (sel32 p (out64 s.x))).setX (T s.x)).setCtl (.refill (i + 1) k)

/-- `REFILL_DONE(k)`: the cursor restarts, slot 0 answers the pending read and counts as consumed (R122). -/
def refillDone (p : Params) (k : ReadKind) (s : State) : Result :=
  let s := s.setIdx 0
  readSlot s 0 fun v => .next (((s.setIdx 1).respond (answer p k v)).setCtl .idle)

/-- One internal step of the controller at `ctl = REFILL(i, k)`; an idle controller does nothing (R121, R122,
60_exceptions.md R214). `i > CAP` occurs in no reachable state (log entry 18). -/
def controllerStep (p : Params) (s : State) : Result :=
  match s.ctl with
  | .idle => .next s
  | .refill i k => if i < p.cap then .next (refillStep p i k s) else refillDone p k s

/-- The buffer after slots 0..n−1 took the words of the stream that starts at `e` (R124). -/
def fillSlots (p : Params) (e : Engine) : Nat → Memory → Memory
  | 0, m => m
  | n + 1, m => (fillSlots p e n m).write n (streamWord p e n)

/-- The whole refill as one step (R124): every slot, the engine advanced `CAP` times, then `REFILL_DONE`. The machine takes
the stepwise form; this is the atomic one it is compared with. -/
def atomicRefill (p : Params) (k : ReadKind) (s : State) : Result :=
  refillDone p k { s with buf := fillSlots p s.x p.cap s.buf, x := iterT p.cap s.x }

end Sys2Proof.Machine
end

