-- ==== Sys2Proof/Machine/Accept.lean ====
section
/-! DEFINITION. Accepting a command, and who moves next: the host's reset, the controller, or a command
(20_memory.md R58, 60_exceptions.md R204, R212). -/

namespace Sys2Proof.Machine

/-- A command word accepted at IDLE, decoding first (60_exceptions.md R204): an illegal word is refused whatever `seeded`
holds. `run` gives the commands their meaning. -/
def acceptWith (run : Instr → State → Result) (w : Command) (s : State) : Result :=
  match decode w with
  | .instr i => run i s
  | .illegal .reservedOp => refuse (.reservedOp w)
  | .illegal .nonzeroArg => refuse (.nonzeroArg w)

/-- One step of block and host. A reset acts at once; during a refill the controller moves and a command waits
(70_reset_and_hazards.md R224); at IDLE the next command is taken from the port; with nothing presented the block waits. -/
def stepBy (p : Params) (run : Instr → State → Result) (s : State) : Result :=
  match s.inputs, s.ctl with
  | .reset :: rest, _ => .next (s.assertReset rest)
  | .wait :: rest, _ => controllerStep p (s.setInputs rest)
  | .cmd w :: rest, .idle => acceptWith run w (s.setInputs rest)
  | .cmd _ :: _, .refill _ _ => controllerStep p s
  | [], _ => controllerStep p s

/-- The commands' meanings for a build `p`. -/
def execWith (p : Params) : Instr → State → Result
  | .init a, s => initWith p a s
  | .rdu32, s => readWith p .u32 s
  | .rdf32, s => readWith p .f32 s

/-- One step of a block built with `p`; `step` is this one at `Config.build` (Laws/Step.lean). -/
def stepWith (p : Params) (s : State) : Result := stepBy p (execWith p) s

end Sys2Proof.Machine
end

