-- ==== Sys2Proof/Machine/Dispatch.lean ====
section
/-! DEFINITION. Each command and its meaning. -/

namespace Sys2Proof.Machine
open Sys2Proof

def exec (i : Instr) (s : State) : Host.Outcome State Fault Refusal :=
  match i with
  | .init a => Sys2Proof.Machine.execInit a s
  | .rdu32 => Sys2Proof.Machine.execRdu32 s
  | .rdf32 => Sys2Proof.Machine.execRdf32 s

end Sys2Proof.Machine
end

