-- ==== Sys2Proof/Machine/Step.lean ====
section
/-! DEFINITION. The step of the built machine, and presenting one command to it. -/

namespace Sys2Proof.Machine

/-- One step of the built machine: `stepBy` with the built parameters and the meanings of `exec`. -/
def step (s : State) : Host.Outcome State Fault Refusal := stepBy Config.build exec s

/-- `s` with the command word of bits `w` presented on the command port and the block ready to accept it, so that the very
next step runs that command. A number that the 34 wires cannot carry is not presented (log entries 11 and 16). -/
def State.withFetchWord (s : State) (_nbits w : Nat) : State :=
  match commandOfBits w with
  | some c => { s with ctl := .idle, inputs := .cmd c :: s.inputs }
  | none => s

end Sys2Proof.Machine
end

