-- ==== Sys2Proof/Machine/Assembler.lean ====
section
/-! DEFINITION. The assembler's lines, one command a line (30_encoding.md R78, R79). -/

namespace Sys2Proof.Machine

/-- What one line of assembly gives. -/
inductive AsmLine where
  | command (c : Command)
  /-- A line with no command: blank, or a comment only (DESIGN CHOICE, log entry 19). -/
  | empty
  /-- A line that is none of the forms of R78, which does not say what becomes of it (DESIGN CHOICE, log entry 19). -/
  | error
  deriving DecidableEq, Repr

/-- The blanks that part the words of a line (log entry 19). -/
def isBlank (c : Char) : Bool := c == ' ' || c == '\t'

/-- The words of a line; `acc` holds the letters of the word being read, the last first. -/
def wordsOf : List Char → List Char → List (List Char)
  | [], acc => if acc = [] then [] else [acc.reverse]
  | c :: cs, acc =>
    if isBlank c then (if acc = [] then wordsOf cs [] else acc.reverse :: wordsOf cs [])
    else wordsOf cs (c :: acc)

/-- The value of a decimal digit. -/
def decDigit (c : Char) : Option Nat :=
  if 48 ≤ c.toNat ∧ c.toNat ≤ 57 then some (c.toNat - 48) else none

/-- The value of a hexadecimal digit, small or capital letters. -/
def hexDigit (c : Char) : Option Nat :=
  if 97 ≤ c.toNat ∧ c.toNat ≤ 102 then some (c.toNat - 87)
  else if 65 ≤ c.toNat ∧ c.toNat ≤ 70 then some (c.toNat - 55)
  else decDigit c

/-- Digits to a number, `n` being the value of those already read. -/
def digitsValue (base : Nat) (digit : Char → Option Nat) : List Char → Nat → Option Nat
  | [], n => some n
  | c :: cs, n =>
    match digit c with
    | some d => digitsValue base digit cs (n * base + d)
    | none => none

/-- An unsigned literal, decimal or `0x` hexadecimal, with at least one digit. -/
def literalNat : List Char → Option Nat
  | [] => none
  | '0' :: 'x' :: c :: cs => digitsValue 16 hexDigit (c :: cs) 0
  | c :: cs => digitsValue 10 decDigit (c :: cs) 0

/-- A 32-bit unsigned literal: one above 2^32 − 1 is no literal of R78. -/
def literal32 (l : List Char) : Option Word32 :=
  match literalNat l with
  | some n => if n < 2 ^ 32 then some (BitVec.ofNat 32 n) else none
  | none => none

/-- The command that a line's words spell; `INIT` with no operand is `INIT 0` (R78). -/
def assembleWords : List (List Char) → AsmLine
  | [] => .empty
  | [w] =>
    if w = ['I', 'N', 'I', 'T'] then .command (encode (.init 0))
    else if w = ['R', 'D', 'U', '3', '2'] then .command (encode .rdu32)
    else if w = ['R', 'D', 'F', '3', '2'] then .command (encode .rdf32)
    else .error
  | [w, imm] =>
    if w = ['I', 'N', 'I', 'T'] then
      match literal32 imm with
      | some a => .command (encode (.init a))
      | none => .error
    else .error
  | _ => .error

/-- One line of assembly; a `;` starts a comment (R78). -/
def assembleLine (l : List Char) : AsmLine := assembleWords (wordsOf (l.takeWhile (· != ';')) [])

/-- The command words of a source text given as its lines, one command a line, in order (R78). R78 does not say what a line
without a command or a wrong line does: here the former is skipped, and one wrong line leaves no program at all (DESIGN CHOICE,
log entry 19). -/
def assembleLines : List (List Char) → Option (List Command)
  | [] => some []
  | l :: ls =>
    match assembleLine l, assembleLines ls with
    | .command c, some cs => some (c :: cs)
    | .empty, some cs => some cs
    | _, _ => none

end Sys2Proof.Machine
end

