-- ==== Sys2Proof/Machine/System.lean ====
section
/-! DEFINITION. Several blocks in one system (60_exceptions.md R211, 70_reset_and_hazards.md R223). -/

namespace Sys2Proof.Machine

/-- One run's next moment: a fault or a refusal stays for the rest of the run (60_exceptions.md R202, R203). -/
def advance : Result → Result
  | .next s => step s
  | .fault f => .fault f
  | .refused r => .refused r

/-- The system at one moment: each instance has its own run, and no state is shared (60_exceptions.md R211). The instances
were built with the same parameters (log entry 20). -/
abbrev Instances := List Result

/-- One step of instance `n`. Which instance steps is the environment's choice: there is no order between them. -/
def stepInstance (n : Nat) (sys : Instances) : Instances := sys.modify n advance

end Sys2Proof.Machine
end

