-- ==== Sys2Proof/WellFormed.lean ====
section
/-! DEFINITION. What is checked before a build or a command is taken as one the spec describes. -/

namespace Sys2Proof

/-- `1 ≤ CAP ≤ 2^32 − 1` (00_scope.md R7, 90_conflicts.md C5): the one bound the spec puts on a build. -/
def Params.wellFormed (p : Params) : Bool := decide (1 ≤ p.cap ∧ p.cap ≤ 4294967295)

/-- Every value of `Instr` is a command the block accepts: "seed is any 32-bit value" (60_exceptions.md R200) and the
operand's type has exactly its 32 bits (30_encoding.md R71), and the reads have no operand. The forms the spec calls
illegal (30_encoding.md R73, R74) are command words, not commands; `decode` refuses them. -/
def Instr.wellFormed : Instr → Bool
  | .init _ => true
  | .rdu32 => true
  | .rdf32 => true

end Sys2Proof
end

