-- ==== Sys2Proof/Safety.lean ====
section
/-! DEFINITION. The machine's invariant, runs of a build, the end of a run, and the words the stream claims use. -/

namespace Sys2Proof.Machine

/-- `k` steps of a block built with `p`, stopping at the first fault or refusal. -/
def runWith (p : Params) : Nat → State → Result
  | 0, s => .next s
  | k + 1, s =>
    match stepWith p s with
    | .next t => runWith p k t
    | .fault f => .fault f
    | .refused r => .refused r

/-- What holds in every reachable state of a block built with `p` (10_state.md R24, R25, R27, 20_memory.md R51,
40_buffered_source.md R114). -/
structure Inv (p : Params) (s : State) : Prop where
  /-- The buffer's list is in canonical form. -/
  canonical : s.buf.wf
  /-- No slot outside 0..CAP−1 is ever written (20_memory.md R51). -/
  slotsInRange : ∀ e ∈ s.buf, e.1 < p.cap
  /-- `0 ≤ idx ≤ CAP` once seeded (10_state.md R24). -/
  cursorInRange : s.seeded = true → s.idx ≤ p.cap
  /-- A read at `idx < CAP` never sees an unwritten slot (40_buffered_source.md R114). -/
  fullWhenReadable : s.seeded = true → s.ctl = .idle → s.idx < p.cap → ∀ j < p.cap, s.valid j = true
  /-- A refill runs only on a seeded block with the buffer exhausted, and has written its slots 0..i−1 (10_state.md R27). -/
  duringRefill : ∀ i k, s.ctl = .refill i k →
    s.seeded = true ∧ s.idx = p.cap ∧ i ≤ p.cap ∧ ∀ j < i, s.valid j = true

/-- The host's next input is no reset and no pause: a command on the port, or nothing (log entries 8 and 9). -/
def HostSteady (s : State) : Prop := s.inputs = [] ∨ ∃ w rest, s.inputs = .cmd w :: rest

/-- The end of a run (70_reset_and_hazards.md R230): the last command issued, the block at IDLE; a fault or a refusal leaves no
state. DESIGN CHOICE (log entry 25): it looks at one state only, so it also counts a run that a reset cut short as ended once
the block is idle again with nothing left to take, of which R230 says nothing. -/
def RunEnded (s : State) : Prop := s.inputs = [] ∧ s.ctl = .idle

/-- The number of fills after `n` draws, `ceil(n / CAP)` (40_buffered_source.md R126, R128). -/
def fillCount (p : Params) (n : Nat) : Nat := (n + p.cap - 1) / p.cap

/-- The state after `n` draws from the engine state `e` that INIT loaded (40_buffered_source.md R126). -/
structure AfterDraws (p : Params) (e : Engine) (n : Nat) (s : State) : Prop where
  seeded : s.seeded = true
  idle : s.ctl = .idle
  engine : s.x = iterT (fillCount p n * p.cap) e
  cursorStart : n = 0 → s.idx = p.cap
  cursor : 0 < n → s.idx = n - (fillCount p n - 1) * p.cap
  slots : 0 < n → ∀ j < p.cap, s.buf.read j = some (streamWord p e ((fillCount p n - 1) * p.cap + j))

/-- The host's inputs for a sequence of reads. -/
def readInputs (ks : List ReadKind) : List HostInput := ks.map fun k => .cmd (encode (readInstr k))

/-- The host's inputs for a sequence of commands. -/
def commandInputs (cs : List Instr) : List HostInput := cs.map fun i => .cmd (encode i)

/-- The commands that draw a word. -/
def isRead (i : Instr) : Bool := i == .rdu32 || i == .rdf32

/-- The response words of the draws `n, n + 1, …` of the kinds `ks` (40_buffered_source.md R125). -/
def drawWords (p : Params) (e : Engine) : Nat → List ReadKind → List Word32
  | _, [] => []
  | n, k :: ks => answer p k (streamWord p e n) :: drawWords p e (n + 1) ks

/-- Steps that are always enough for a number of commands: `CAP + 2` each (60_exceptions.md R205). -/
def enoughSteps (p : Params) (n : Nat) : Nat := n * (p.cap + 2)

/-- The digits `ds`, the first digit first, as a decimal literal. -/
def decimalText (ds : List Nat) : List Char := ds.map fun d => Char.ofNat (48 + d)

/-- The digits `ds`, each with its choice of a capital letter, as the digits of a hexadecimal literal. -/
def hexText (ds : List (Nat × Bool)) : List Char :=
  ds.map fun d => Char.ofNat (if d.1 < 10 then 48 + d.1 else if d.2 then 55 + d.1 else 87 + d.1)

/-- The rest of a line of assembly after its command: nothing, or a comment (30_encoding.md R78). -/
def LineRest (l : List Char) : Prop := l = [] ∨ ∃ c, l = ';' :: c

/-- The value of the binary32 word `r` in units of 2^−55, for `r` zero or a normal number with biased exponent at least 95
(the words `f32bits` gives): `(2^23 + fraction) × 2^(exponent − 95)`. A 32-bit `u` stands for `u × 2^−32`, which is `u × 2^23`
of these units. -/
def f32Units (r : Word32) : Nat :=
  if r.toNat = 0 then 0 else (2 ^ 23 + r.toNat % 2 ^ 23) * 2 ^ (r.toNat / 2 ^ 23 - 95)

/-- The binary32 words of zero and of the normal numbers from 2^−32 to below 2, the range RDF32 answers in. -/
def f32InRange (r : Word32) : Prop := r = 0 ∨ (95 ≤ r.toNat / 2 ^ 23 ∧ r.toNat / 2 ^ 23 ≤ 127)

end Sys2Proof.Machine
end

