-- ==== Sys2Proof/Certificates/Slice0/Obligations.lean ====
section
/-! DEFINITION. What is claimed of the machine, rule by rule. `Config.build` is opaque, so a statement about `step` or `exec`
holds of every build the spec allows. -/

open Sys2Proof Sys2Proof.Machine

/-! ### Encoding (30_encoding.md) -/

/-- R75: a command word decodes to a command exactly when it is that command's own word. -/
def Obligations.DecodeExactlyInvertsEncode : Prop :=
  ∀ (c : Command) (i : Instr), decode c = .instr i ↔ c = encode i

/-- R73, R74: the illegal words and their names. -/
def Obligations.IllegalWordsDecodeByName : Prop :=
  ∀ c : Command,
    (decode c = .illegal .reservedOp ↔ opField c = 0b11#2) ∧
    (decode c = .illegal .nonzeroArg ↔ (opField c = 0b01#2 ∨ opField c = 0b10#2) ∧ argField c ≠ 0)

/-- R72: a word lies in a row of the match and mask table exactly when it decodes to that row's command. -/
def Obligations.OpcodeRowsAgreeWithDecode : Prop :=
  ∀ c : Command,
    ((opcodeRow (.init 0)).holds c = true ↔ ∃ a, decode c = .instr (.init a)) ∧
    ((opcodeRow .rdu32).holds c = true ↔ decode c = .instr .rdu32) ∧
    ((opcodeRow .rdf32).holds c = true ↔ decode c = .instr .rdf32)

/-- R72, R78: words written out bit by bit from the format `oo aaaa…`. -/
def Obligations.WrittenOutWordsDecode : Prop :=
  decode 0b0010000000000000000000000000000001#34 = .instr (.init 0x80000001) ∧
  decode 0b0100000000000000000000000000000000#34 = .instr .rdu32 ∧
  decode 0b1000000000000000000000000000000000#34 = .instr .rdf32 ∧
  decode 0b1100000000000000000000000000000000#34 = .illegal .reservedOp ∧
  decode 0b0100000000000000000000000000000001#34 = .illegal .nonzeroArg

/-- R78: `INIT` with any literal of at least one digit, decimal or after `0x` hexadecimal, leading zeros or not, letters small
or capital, with or without a comment, assembles to that INIT's word; a literal that 32 bits cannot hold is an error. That either
case of a letter is read and that a literal out of range is an error is the model's (DESIGN CHOICE, log entry 19). -/
def Obligations.AssemblerReadsEveryOffset : Prop :=
  (∀ (ds : List Nat) (rest : List Char), ds ≠ [] → (∀ d ∈ ds, d < 10) → LineRest rest →
    assembleLine (['I', 'N', 'I', 'T', ' '] ++ decimalText ds ++ rest) =
      if Nat.ofDigits 10 ds.reverse < 2 ^ 32
        then .command (encode (.init (BitVec.ofNat 32 (Nat.ofDigits 10 ds.reverse)))) else .error) ∧
  (∀ (ds : List (Nat × Bool)) (rest : List Char), ds ≠ [] → (∀ d ∈ ds, d.1 < 16) → LineRest rest →
    assembleLine (['I', 'N', 'I', 'T', ' ', '0', 'x'] ++ hexText ds ++ rest) =
      if Nat.ofDigits 16 (ds.map Prod.fst).reverse < 2 ^ 32
        then .command (encode (.init (BitVec.ofNat 32 (Nat.ofDigits 16 (ds.map Prod.fst).reverse)))) else .error)

/-- R78: the lines without a literal, with or without a comment; `INIT` with no operand is `INIT 0`. That a blank line or a
comment alone is a line with no command, and no error, is the model's (DESIGN CHOICE, log entry 19). -/
def Obligations.AssemblerReadsLinesWithoutLiteral : Prop :=
  ∀ rest : List Char, LineRest rest →
    assembleLine (['I', 'N', 'I', 'T'] ++ rest) = .command 0x000000000#34 ∧
    assembleLine (['R', 'D', 'U', '3', '2'] ++ rest) = .command 0x100000000#34 ∧
    assembleLine (['R', 'D', 'F', '3', '2'] ++ rest) = .command 0x200000000#34 ∧
    assembleLine rest = .empty

/-! ### Taking a command (20_memory.md R58, 60_exceptions.md R204) -/

/-- A command word presented to an idle block is decoded, taken from the port and run. -/
def Obligations.StepRunsTheDecodedCommand : Prop :=
  ∀ (s : State) (w : Command) (rest : List HostInput) (i : Instr),
    s.ctl = .idle → s.inputs = .cmd w :: rest → decode w = .instr i →
    step s = exec i { s with inputs := rest }

/-- The very next step of a state that was given a command's word runs that command. -/
def Obligations.PresentedCommandRunsNext : Prop :=
  ∀ (s : State) (i : Instr) (nbits : Nat),
    step (s.withFetchWord nbits (encode i).toNat) = exec i { s with ctl := .idle }

/-- R73, R74, R204: an illegal word is refused with the word, whatever `seeded` holds. -/
def Obligations.IllegalWordsAreRefusedFirst : Prop :=
  ∀ (s : State) (w : Command) (rest : List HostInput),
    s.ctl = .idle → s.inputs = .cmd w :: rest →
    (opField w = 0b11#2 → step s = .refused (.reservedOp w)) ∧
    (opField w = 0b01#2 ∨ opField w = 0b10#2 → argField w ≠ 0 → step s = .refused (.nonzeroArg w))

/-- R224: a command presented during a refill stays on the port, and the refill moves as if it were not there. -/
def Obligations.CommandWaitsWhileBusy : Prop :=
  ∀ (s t : State) (w : Command) (rest : List HostInput),
    s.busy = true → s.inputs = .cmd w :: rest → step s = .next t →
    t.inputs = s.inputs ∧ step { s with inputs := [] } = .next { t with inputs := [] }

/-- R214: between commands the block holds its state. -/
def Obligations.IdleBlockHoldsItsState : Prop :=
  ∀ s : State, s.ctl = .idle → s.inputs = [] → step s = .next s

/-! ### Reset (70_reset_and_hazards.md R220, R221) -/

/-- R32: what the spec says the state after reset holds. -/
def Obligations.ResetStateValues : Prop :=
  State.reset.seeded = false ∧ State.reset.ctl = .idle ∧ State.reset.busy = false ∧
  ∀ j, State.reset.valid j = false

/-- R220, R221: a reset gives the same block whatever it was doing; a pending read never responds. The zeros of
`State.reset` in `x` and `idx` and the keeping of the words already answered are the model's (log entries 2, 3, 9). -/
def Obligations.ResetAbandonsEverything : Prop :=
  ∀ (s : State) (rest : List HostInput), s.inputs = .reset :: rest →
    step s = .next { State.reset with inputs := rest, responses := s.responses }

/-! ### INIT (40_buffered_source.md R100 to R102) -/

/-- R100, R101: INIT's whole effect, in every state. -/
def Obligations.InitSeedsTheBlock : Prop :=
  ∀ (a : Word32) (s : State),
    exec (.init a) s = .next { s with
      x := Config.build.seedExpand (BitVec.ofNat 32 ((Config.build.baseSeed.toNat + a.toNat) % 2 ^ 32))
      idx := Config.build.cap
      seeded := true }

/-- INIT leaves the state of no draws (R126 at n = 0). -/
def Obligations.InitStartsTheStream : Prop :=
  ∀ (a : Word32) (s : State), s.ctl = .idle →
    ∃ t, exec (.init a) s = .next t ∧
      AfterDraws Config.build (Config.build.seedExpand (seedOf Config.build a)) 0 t

/-! ### RDU32 and RDF32 (40_buffered_source.md R110, R111) -/

/-- R110: RDU32, its four cases. -/
def Obligations.ReadU32Result : Prop :=
  ∀ s : State,
    (s.seeded = false → exec .rdu32 s = .fault (.unseededRead 0x100000000#34)) ∧
    (s.seeded = true → s.idx < Config.build.cap →
      (∀ v, s.buf.read s.idx = some v →
        exec .rdu32 s = .next { s with idx := s.idx + 1, responses := s.responses ++ [v] }) ∧
      (s.buf.read s.idx = none → exec .rdu32 s = .fault (.unwrittenSlot s.idx))) ∧
    (s.seeded = true → s.idx = Config.build.cap →
      exec .rdu32 s = .next { s with ctl := .refill 0 .u32 })

/-- R111: RDF32, its four cases; it consumes the slot RDU32 would have consumed. -/
def Obligations.ReadF32Result : Prop :=
  ∀ s : State,
    (s.seeded = false → exec .rdf32 s = .fault (.unseededRead 0x200000000#34)) ∧
    (s.seeded = true → s.idx < Config.build.cap →
      (∀ v, s.buf.read s.idx = some v →
        exec .rdf32 s = .next { s with
          idx := s.idx + 1, responses := s.responses ++ [f32bits Config.build.f32Mode v] }) ∧
      (s.buf.read s.idx = none → exec .rdf32 s = .fault (.unwrittenSlot s.idx))) ∧
    (s.seeded = true → s.idx = Config.build.cap →
      exec .rdf32 s = .next { s with ctl := .refill 0 .f32 })

/-- The frame of the three commands: none writes a slot, its validity or the command port (R100 to R102, R110, R111). INIT
leaves the controller and the responses; a read leaves the engine words and `seeded`, with a slot left the controller too,
with none left the cursor and the responses. -/
def Obligations.CommandsFrame : Prop :=
  ∀ (i : Instr) (s t : State), exec i s = .next t →
    (∀ j, t.buf.read j = s.buf.read j) ∧ t.inputs = s.inputs ∧
    (∀ a, i = .init a → t.ctl = s.ctl ∧ t.responses = s.responses) ∧
    (i = .rdu32 ∨ i = .rdf32 →
      t.x = s.x ∧ t.seeded = s.seeded ∧
      (s.idx < Config.build.cap → t.ctl = s.ctl) ∧
      (Config.build.cap ≤ s.idx → t.idx = s.idx ∧ t.responses = s.responses))

/-! ### The refill controller (40_buffered_source.md R120 to R124) -/

/-- R121: one refill slot step, with its frame. -/
def Obligations.RefillSlotStepResult : Prop :=
  ∀ (s : State) (i : Nat) (k : ReadKind),
    s.ctl = .refill i k → i < Config.build.cap → HostSteady s →
    ∃ t, step s = .next t ∧
      t.buf.read i = some (sel32 Config.build (out64 s.x)) ∧ t.valid i = true ∧
      (∀ j, j ≠ i → t.buf.read j = s.buf.read j) ∧
      t.x = T s.x ∧ t.ctl = .refill (i + 1) k ∧
      t.idx = s.idx ∧ t.seeded = s.seeded ∧ t.inputs = s.inputs ∧ t.responses = s.responses

/-- R122: the completion step, for a pending read of each kind. -/
def Obligations.RefillDoneResult : Prop :=
  ∀ (s : State) (v : Word32), HostSteady s → s.buf.read 0 = some v →
    (s.ctl = .refill Config.build.cap .u32 →
      step s = .next { s with idx := 1, responses := s.responses ++ [v], ctl := .idle }) ∧
    (s.ctl = .refill Config.build.cap .f32 →
      step s = .next { s with
        idx := 1, responses := s.responses ++ [f32bits Config.build.f32Mode v], ctl := .idle })

/-- R124: the CAP + 1 internal steps are one atomic refill, from every state in which a refill starts. -/
def Obligations.RefillStepsAreOneAtomicRefill : Prop :=
  ∀ (s : State) (k : ReadKind), s.ctl = .refill 0 k → HostSteady s →
    core.run (Config.build.cap + 1) s = atomicRefill Config.build k s ∧
    ∃ t, core.run (Config.build.cap + 1) s = .next t ∧
      (∀ j < Config.build.cap, t.buf.read j = some (sel32 Config.build (out64 (iterT j s.x)))) ∧
      (∀ j, Config.build.cap ≤ j → t.buf.read j = s.buf.read j) ∧
      t.x = iterT Config.build.cap s.x ∧ t.idx = 1 ∧ t.ctl = .idle ∧
      t.seeded = s.seeded ∧ t.inputs = s.inputs ∧
      t.responses = s.responses ++ [answer Config.build k (sel32 Config.build (out64 s.x))]

/-- R205: a read with a slot left answers in one step, a read on an exhausted buffer in exactly CAP + 2, INIT in one. -/
def Obligations.CommandsCompleteInBoundedSteps : Prop :=
  ∀ s : State, Inv Config.build s → s.ctl = .idle →
    (∀ a, s.inputs = [.cmd (encode (.init a))] →
      ∃ t, step s = .next t ∧ RunEnded t ∧ t.responses = s.responses) ∧
    (∀ k, s.seeded = true → s.inputs = [.cmd (encode (readInstr k))] → s.idx < Config.build.cap →
      ∃ t v, step s = .next t ∧ RunEnded t ∧ t.responses = s.responses ++ [v]) ∧
    (∀ k, s.seeded = true → s.inputs = [.cmd (encode (readInstr k))] → s.idx = Config.build.cap →
      (∀ m, 1 ≤ m → m ≤ Config.build.cap + 1 → ∃ t, core.run m s = .next t ∧ t.busy = true) ∧
      ∃ t v, core.run (Config.build.cap + 2) s = .next t ∧ RunEnded t ∧ t.responses = s.responses ++ [v])

/-! ### The stream (40_buffered_source.md R103, R123 to R128) -/

/-- R125, R126: from the state of `n` draws, any further reads in any mix answer the stream's next words and leave the state
of that many more draws. -/
def Obligations.StreamContinuesFromAnyDraw : Prop :=
  ∀ (e : Engine) (n : Nat) (ks : List ReadKind) (s : State),
    AfterDraws Config.build e n s → s.inputs = readInputs ks →
    ∃ t, core.run (enoughSteps Config.build ks.length) s = .next t ∧ RunEnded t ∧
      AfterDraws Config.build e (n + ks.length) t ∧
      t.responses = s.responses ++ drawWords Config.build e n ks

/-- R126: an idle block that takes `INIT a` and then any reads, whatever it held before. -/
def Obligations.StreamFromInit : Prop :=
  ∀ (a : Word32) (ks : List ReadKind) (s : State),
    s.ctl = .idle → s.inputs = .cmd (encode (.init a)) :: readInputs ks →
    ∃ t, core.run (1 + enoughSteps Config.build ks.length) s = .next t ∧ RunEnded t ∧
      AfterDraws Config.build (Config.build.seedExpand (seedOf Config.build a)) ks.length t ∧
      t.responses = s.responses ++ drawWords Config.build (Config.build.seedExpand (seedOf Config.build a)) 0 ks

/-- R102, R103: two blocks that receive the same commands from an INIT on answer the same words, one word a read, whatever
each held before. -/
def Obligations.InitErasesHistory : Prop :=
  ∀ (a : Word32) (cs : List Instr) (s t : State),
    s.ctl = .idle → t.ctl = .idle →
    s.inputs = commandInputs (.init a :: cs) → t.inputs = commandInputs (.init a :: cs) →
    ∃ s' t' ws, core.run (enoughSteps Config.build (cs.length + 1)) s = .next s' ∧
      core.run (enoughSteps Config.build (cs.length + 1)) t = .next t' ∧
      RunEnded s' ∧ RunEnded t' ∧ ws.length = cs.countP isRead ∧
      s'.responses = s.responses ++ ws ∧ t'.responses = t.responses ++ ws

/-- R127: two builds that differ only in CAP answer the same words to the same commands from an INIT on. -/
def Obligations.StreamIgnoresCapacity : Prop :=
  ∀ (p : Params) (c : Nat) (a : Word32) (cs : List Instr) (s t : State),
    p.wellFormed = true → { p with cap := c }.wellFormed = true →
    s.ctl = .idle → t.ctl = .idle →
    s.inputs = commandInputs (.init a :: cs) → t.inputs = commandInputs (.init a :: cs) →
    ∃ s' t' ws, runWith p (enoughSteps p (cs.length + 1)) s = .next s' ∧
      runWith { p with cap := c } (enoughSteps { p with cap := c } (cs.length + 1)) t = .next t' ∧
      RunEnded s' ∧ RunEnded t' ∧ ws.length = cs.countP isRead ∧
      s'.responses = s.responses ++ ws ∧ t'.responses = t.responses ++ ws

/-- 00_scope.md R7, 40_buffered_source.md R125: a block built with the defaults of the table answers the low halves of the
output, rounded to nearest for RDF32, from a buffer of 256 slots. -/
def Obligations.StreamOfTheDefaultBuild : Prop :=
  ∀ (a : Word32) (ks : List ReadKind) (s : State),
    s.ctl = .idle → s.inputs = .cmd (encode (.init a)) :: readInputs ks →
    ∃ t, runWith Config.defaultBuild (1 + ks.length * 258) s = .next t ∧ RunEnded t ∧
      t.responses = s.responses ++ ks.mapIdx fun n k =>
        let w := low32 (out64 (iterT n (Config.seedExpand (Config.baseSeed + a))))
        match k with
        | .u32 => w
        | .f32 => f32bits .rne w

/-- R123: a block filled eagerly, as a constructor might (slots 0..CAP−1 written, cursor at 0), answers the same words. -/
def Obligations.LazyFillIsInvisible : Prop :=
  ∀ (e : Engine) (ks : List ReadKind) (s : State),
    s.seeded = true → s.ctl = .idle → s.idx = 0 → s.x = iterT Config.build.cap e →
    (∀ j < Config.build.cap, s.buf.read j = some (streamWord Config.build e j)) →
    s.inputs = readInputs ks →
    ∃ t, core.run (enoughSteps Config.build ks.length) s = .next t ∧ RunEnded t ∧
      t.responses = s.responses ++ drawWords Config.build e 0 ks

/-- R128: draw `n` starts a refill exactly when `n mod CAP = 0`. -/
def Obligations.RefillRunsExactlyWhenDue : Prop :=
  ∀ (e : Engine) (n : Nat) (k : ReadKind) (rest : List HostInput) (s : State),
    AfterDraws Config.build e n s → s.inputs = .cmd (encode (readInstr k)) :: rest →
    ∃ t, step s = .next t ∧ (t.busy = true ↔ n % Config.build.cap = 0)

/-! ### The engine (41_xoshiro_engine.md) -/

/-- R141 and 00_scope.md R11: the output sum as a number, the two halves, and the half that `OUT_SEL` keeps. -/
def Obligations.OutputSumAndHalves : Prop :=
  ∀ (s : Engine) (v : Word64) (p : Params),
    (out64 s).toNat = (s.s0.toNat + s.s3.toNat) % 2 ^ 64 ∧
    (low32 v).toNat = v.toNat % 2 ^ 32 ∧ (high32 v).toNat = v.toNat / 2 ^ 32 ∧
    (p.outSel = .low32 → (sel32 p v).toNat = v.toNat % 2 ^ 32) ∧
    (p.outSel = .high32 → (sel32 p v).toNat = v.toNat / 2 ^ 32)

/-- 00_scope.md R9: `rotl64(a, n)` moves bit `i` to bit `(i + n) mod 64`. -/
def Obligations.RotationMovesEachBit : Prop :=
  ∀ (a : Word64) (n i : Nat), 1 ≤ n → n ≤ 63 → i < 64 →
    (rotl64 a n).getLsbD ((i + n) % 64) = a.getLsbD i

/-- R143: the closed form of `T`; the last clause says bit by bit what the rotation of the fourth does. -/
def Obligations.TransitionClosedForm : Prop :=
  ∀ s : Engine,
    (T s).s0 = s.s0 ^^^ s.s1 ^^^ s.s3 ∧
    (T s).s1 = s.s0 ^^^ s.s1 ^^^ s.s2 ∧
    (T s).s2 = s.s0 ^^^ s.s2 ^^^ (s.s1 <<< 17) ∧
    (T s).s3 = rotl64 (s.s1 ^^^ s.s3) 45 ∧
    ∀ i < 64, (T s).s3.getLsbD ((i + 45) % 64) = (s.s1.getLsbD i ^^ s.s3.getLsbD i)

/-- R144: `T` is a bijection, with the inverse the rule gives. -/
def Obligations.TransitionIsABijection : Prop :=
  (∀ s : Engine, Tinv (T s) = s) ∧ (∀ a : Engine, T (Tinv a) = a)

/-- R145: the all-zero state is fixed and never reached from another, and every word of its stream is zero. -/
def Obligations.ZeroStateIsAlone : Prop :=
  (∀ (n : Nat) (s : Engine), iterT n s = Engine.zero ↔ s = Engine.zero) ∧
  ∀ (p : Params) (n : Nat) (ks : List ReadKind),
    drawWords p Engine.zero n ks = List.replicate ks.length 0

/-- R146: `T` is linear word by word, `out64` is not. -/
def Obligations.TransitionIsLinear : Prop :=
  (∀ a b : Engine, T (xorEngine a b) = xorEngine (T a) (T b)) ∧
  ∃ a b : Engine, out64 (xorEngine a b) ≠ out64 a ^^^ out64 b

/-! ### The binary32 conversion (40_buffered_source.md R112, R113) -/

/-- R112: under RTZ the result is the largest binary32 number not above `u × 2^−32`; under RNE it is a nearest one, and the
even one of two that are equally near. Values are counted in units of 2^−55. -/
def Obligations.F32BitsRoundsCorrectly : Prop :=
  ∀ u : Word32,
    (f32InRange (f32bits .rtz u) ∧ f32Units (f32bits .rtz u) ≤ u.toNat * 2 ^ 23 ∧
      ∀ w, f32InRange w → f32Units w ≤ u.toNat * 2 ^ 23 → f32Units w ≤ f32Units (f32bits .rtz u)) ∧
    (f32InRange (f32bits .rne u) ∧
      ∀ w, f32InRange w →
        ((f32Units (f32bits .rne u) : Int) - u.toNat * 2 ^ 23).natAbs ≤
          ((f32Units w : Int) - u.toNat * 2 ^ 23).natAbs ∧
        (w ≠ f32bits .rne u →
          ((f32Units w : Int) - u.toNat * 2 ^ 23).natAbs =
            ((f32Units (f32bits .rne u) : Int) - u.toNat * 2 ^ 23).natAbs →
          (f32bits .rne u).toNat % 2 = 0))

/-- R113: the range of `f32bits`, clause by clause. -/
def Obligations.F32BitsRange : Prop :=
  (∀ (m : F32Mode) (u : Word32), (f32bits m u = 0 ↔ u = 0) ∧
    (u ≠ 0 → 0x2F800000 ≤ (f32bits m u).toNat ∧ (f32bits m u).toNat ≤ 0x3F800000) ∧
    f32bits m 1#32 = 0x2F800000#32) ∧
  (∀ (m : F32Mode) (u v : Word32), u.toNat ≤ v.toNat → (f32bits m u).toNat ≤ (f32bits m v).toNat) ∧
  (∀ u : Word32, (f32bits .rtz u).toNat ≤ 0x3F7FFFFF) ∧ f32bits .rtz 0xFFFFFFFF#32 = 0x3F7FFFFF#32 ∧
  (∀ u : Word32, f32bits .rne u = 0x3F800000#32 ↔ 0xFFFFFF80 ≤ u.toNat) ∧
  (∀ (m : F32Mode) (u : Word32), u.toNat < 2 ^ 24 → f32Units (f32bits m u) = u.toNat * 2 ^ 23) ∧
  ∀ m : F32Mode, ∃ u v : Word32, 2 ^ 24 ≤ u.toNat ∧ 2 ^ 24 ≤ v.toNat ∧ u ≠ v ∧ f32bits m u = f32bits m v

/-! ### Invariants and rules of the whole machine -/

/-- The invariant holds after reset. -/
def Obligations.InvariantHoldsAtReset : Prop := Inv Config.build State.reset

/-- R24, R25, R27, R51, R114: every step keeps the invariant. -/
def Obligations.EveryStepKeepsTheInvariant : Prop :=
  ∀ s t : State, Inv Config.build s → step s = .next t → Inv Config.build t

/-- The buffer's canonical form survives every step, in every state. -/
def Obligations.EveryStepKeepsTheBufferCanonical : Prop :=
  ∀ s t : State, s.buf.wf → step s = .next t → t.buf.wf

/-- R23, 00_scope.md R7: IDX_W bits hold the cursor, and CAP needs them all. -/
def Obligations.CursorFitsItsWidth : Prop :=
  ∀ (p : Params) (s : State), p.wellFormed = true → Inv p s → s.seeded = true →
    s.idx < 2 ^ p.idxWidth ∧ 2 ^ (p.idxWidth - 1) < p.cap + 1 ∧ p.cap + 1 ≤ 2 ^ p.idxWidth

/-- R25, R114: no step of a state that meets the invariant reads an unwritten slot. -/
def Obligations.NoUnwrittenSlotIsRead : Prop :=
  ∀ (s : State) (j : Nat), Inv Config.build s → step s ≠ .fault (.unwrittenSlot j)

/-- R200, R201, R204: under the invariant a step stops only on a read before INIT or on an illegal word, and says which. -/
def Obligations.NothingElseStopsTheMachine : Prop :=
  ∀ s : State, Inv Config.build s →
    (∀ f, step s = .fault f → ∃ k rest, s.ctl = .idle ∧ s.seeded = false ∧
      s.inputs = .cmd (encode (readInstr k)) :: rest ∧ f = .unseededRead (encode (readInstr k))) ∧
    (∀ r, step s = .refused r → ∃ w rest, s.ctl = .idle ∧ s.inputs = .cmd w :: rest ∧
      ((opField w = 0b11#2 ∧ r = .reservedOp w) ∨
        ((opField w = 0b01#2 ∨ opField w = 0b10#2) ∧ argField w ≠ 0 ∧ r = .nonzeroArg w)))

/-- R26: only reset clears `seeded`, and only INIT sets it. -/
def Obligations.SeededChangesOnlyByInitAndReset : Prop :=
  ∀ s t : State, step s = .next t →
    (s.seeded = true → t.seeded = false → ∃ rest, s.inputs = .reset :: rest) ∧
    (s.seeded = false → t.seeded = true →
      s.ctl = .idle ∧ ∃ a rest, s.inputs = .cmd (encode (.init a)) :: rest)

/-- R21: only reset, INIT and a refill slot step write the engine state words. -/
def Obligations.EngineWrittenOnlyByInitAndRefill : Prop :=
  ∀ s t : State, step s = .next t → t.x ≠ s.x →
    (∃ rest, s.inputs = .reset :: rest) ∨
    (s.ctl = .idle ∧ ∃ a rest, s.inputs = .cmd (encode (.init a)) :: rest) ∨
    (t.x = T s.x ∧ ∃ i k, s.ctl = .refill i k ∧ i < Config.build.cap)

/-- R22: only reset and the refill slot step at `i = j` change slot `j`. -/
def Obligations.SlotWrittenOnlyByItsRefillStep : Prop :=
  ∀ (s t : State) (j : Nat), step s = .next t → t.buf.read j ≠ s.buf.read j →
    (∃ rest, s.inputs = .reset :: rest) ∨
    (t.buf.read j = some (sel32 Config.build (out64 s.x)) ∧
      ∃ k, s.ctl = .refill j k ∧ j < Config.build.cap)

/-- R76, R77: a step answers at most one word, and only a read with a slot left or the end of a refill answers one. -/
def Obligations.OnlyReadsRespond : Prop :=
  ∀ s t : State, step s = .next t → t.responses ≠ s.responses →
    (∃ v, t.responses = s.responses ++ [v]) ∧
    ((∃ k rest, s.ctl = .idle ∧ s.idx < Config.build.cap ∧
        s.inputs = .cmd (encode (readInstr k)) :: rest) ∨
      (∃ i k, s.ctl = .refill i k ∧ Config.build.cap ≤ i ∧ t.ctl = .idle))

/-- R27: the output `busy`. -/
def Obligations.BusyExactlyWhenNotIdle : Prop := ∀ s : State, s.busy = true ↔ s.ctl ≠ .idle

/-! ### Several instances (60_exceptions.md R211, 70_reset_and_hazards.md R223) -/

/-- R211, R223: whatever order the instances step in, each ends as its own steps alone make it. -/
def Obligations.InstancesRunAlone : Prop :=
  ∀ (schedule : List Nat) (sys : Instances) (m : Nat),
    (schedule.foldl (fun y n => stepInstance n y) sys)[m]? =
      (sys[m]?).map (Nat.iterate advance (schedule.count m))

/-! ### The build parameters (00_scope.md R7) -/

/-- R7: a build that says nothing but the two OPEN parameters has the values of the table and is within its bounds. -/
def Obligations.BuildParameterDefaults : Prop :=
  ∀ (base : Word32) (expand : Word32 → Engine) (p : Params),
    p = { baseSeed := base, seedExpand := expand } →
    p.cap = 256 ∧ p.idxWidth = 9 ∧ p.outSel = .low32 ∧ p.f32Mode = .rne ∧ p.wellFormed = true
end

