-- ==== Sys2Proof/Laws/Decode.lean ====
section
/-! SUPPORT. The two fields of a command word, and of the words the encoder gives. -/

namespace Sys2Proof

@[simp] theorem opField_commandWord (op : BitVec 2) (a : Word32) : opField (commandWord op a) = op := by
  refine BitVec.eq_of_getLsbD_eq fun i hi => ?_
  have h2 : 32 + i < 34 := by omega
  simp [opField, commandWord, hi, h2]

@[simp] theorem argField_commandWord (op : BitVec 2) (a : Word32) : argField (commandWord op a) = a := by
  refine BitVec.eq_of_getLsbD_eq fun i hi => ?_
  have h2 : i < 34 := by omega
  simp [argField, commandWord, hi, h2]

/-- A command word is its two fields. -/
theorem commandWord_fields (c : Command) : commandWord (opField c) (argField c) = c := by
  refine BitVec.eq_of_getLsbD_eq fun i hi => ?_
  by_cases h : i < 32
  · simp [opField, argField, commandWord, h, hi]
  · have h2 : i - 32 < 2 := by omega
    have h3 : 32 + (i - 32) = i := by omega
    simp [opField, argField, commandWord, h, h2, h3, hi]

/-- The four values of `op`. -/
theorem opField_values (c : Command) :
    opField c = 0b00#2 ∨ opField c = 0b01#2 ∨ opField c = 0b10#2 ∨ opField c = 0b11#2 := by
  generalize opField c = o
  revert o
  decide

end Sys2Proof
end

