-- ==== Sys2Proof/Laws/Engine.lean ====
section
/-! SUPPORT. The engine's iterates. -/

namespace Sys2Proof.Machine

@[simp] theorem iterT_zero (s : Engine) : iterT 0 s = s := rfl

theorem iterT_succ (n : Nat) (s : Engine) : iterT (n + 1) s = iterT n (T s) := rfl

theorem iterT_succ_out (n : Nat) (s : Engine) : iterT (n + 1) s = T (iterT n s) := by
  induction n generalizing s with
  | zero => rfl
  | succ n ih => rw [iterT_succ, ih, iterT_succ]

theorem iterT_add (m n : Nat) (s : Engine) : iterT (m + n) s = iterT n (iterT m s) := by
  induction m generalizing s with
  | zero => simp
  | succ m ih => rw [Nat.succ_add, iterT_succ, ih, iterT_succ]

/-- The stream that starts `m` transitions later is the same stream from its `m`-th word on. -/
theorem streamWord_add (p : Params) (s : Engine) (m n : Nat) :
    streamWord p (iterT m s) n = streamWord p s (m + n) := by
  rw [streamWord, streamWord, iterT_add]

end Sys2Proof.Machine
end

