-- ==== Sys2Proof/Laws/Float.lean ====
section
/-! SUPPORT. The packed word as a number, and the rounded quotient's two values. -/

namespace Sys2Proof.Machine

/-- The packed word read as a number: exponent and fraction do not overlap. -/
theorem packF32_toNat {e : Nat} (q : Nat) (he : e ≤ 32) :
    (packF32 e q).toNat = (e + 95) * 2 ^ 23 + q % 2 ^ 23 := by
  have hlt : q % 2 ^ 23 < 2 ^ 23 := Nat.mod_lt _ (by decide)
  rw [packF32, ← Nat.shiftLeft_add_eq_or_of_lt hlt, Nat.shiftLeft_eq, BitVec.toNat_ofNat]
  exact Nat.mod_eq_of_lt (by omega)

theorem roundShift_rtz (n sh : Nat) : roundShift .rtz n sh = n / 2 ^ sh := by
  simp [roundShift, roundsUp, Nat.shiftRight_eq_div_pow]

/-- Under RNE the quotient is rounded up exactly past the half, or on the half when it is odd. -/
theorem roundShift_rne (n sh : Nat) : roundShift .rne n sh =
    if 2 ^ (sh - 1) < n % 2 ^ sh ∨ (n % 2 ^ sh = 2 ^ (sh - 1) ∧ n / 2 ^ sh % 2 = 1)
      then n / 2 ^ sh + 1 else n / 2 ^ sh := by
  simp [roundShift, roundsUp, Nat.shiftRight_eq_div_pow]

/-- The three forms of a conversion's result. -/
theorem f32bits_cases (m : F32Mode) (u : Word32) :
    (u.toNat = 0 ∧ f32bits m u = 0) ∨
    (u.toNat ≠ 0 ∧ Nat.log2 u.toNat ≤ 23 ∧
      f32bits m u = packF32 (Nat.log2 u.toNat) (u.toNat * 2 ^ (23 - Nat.log2 u.toNat))) ∨
    (23 < Nat.log2 u.toNat ∧ f32bits m u =
      if roundShift m u.toNat (Nat.log2 u.toNat - 23) = 2 ^ 24
        then packF32 (Nat.log2 u.toNat + 1) (2 ^ 23)
        else packF32 (Nat.log2 u.toNat) (roundShift m u.toNat (Nat.log2 u.toNat - 23))) := by
  unfold f32bits
  by_cases h0 : u.toNat = 0
  · exact .inl ⟨h0, by simp [h0]⟩
  · by_cases he : Nat.log2 u.toNat ≤ 23
    · exact .inr (.inl ⟨h0, he, by simp [h0, he, Nat.shiftLeft_eq]⟩)
    · exact .inr (.inr ⟨Nat.lt_of_not_le he, by simp [h0, he]⟩)

end Sys2Proof.Machine
end

