-- ==== Sys2Proof/Laws/State.lean ====
section
/-! SUPPORT. What each update leaves in each field of the state, and what the state after reset holds. -/

namespace Sys2Proof.Machine

@[simp] theorem State.setX_x (s : State) (e : Engine) : (s.setX e).x = e := rfl
@[simp] theorem State.setX_buf (s : State) (e : Engine) : (s.setX e).buf = s.buf := rfl
@[simp] theorem State.setX_idx (s : State) (e : Engine) : (s.setX e).idx = s.idx := rfl
@[simp] theorem State.setX_seeded (s : State) (e : Engine) : (s.setX e).seeded = s.seeded := rfl
@[simp] theorem State.setX_ctl (s : State) (e : Engine) : (s.setX e).ctl = s.ctl := rfl
@[simp] theorem State.setX_inputs (s : State) (e : Engine) : (s.setX e).inputs = s.inputs := rfl
@[simp] theorem State.setX_responses (s : State) (e : Engine) : (s.setX e).responses = s.responses := rfl

@[simp] theorem State.writeSlot_x (s : State) (j : Nat) (v : Word32) : (s.writeSlot j v).x = s.x := rfl
@[simp] theorem State.writeSlot_buf (s : State) (j : Nat) (v : Word32) : (s.writeSlot j v).buf = s.buf.write j v := rfl
@[simp] theorem State.writeSlot_idx (s : State) (j : Nat) (v : Word32) : (s.writeSlot j v).idx = s.idx := rfl
@[simp] theorem State.writeSlot_seeded (s : State) (j : Nat) (v : Word32) : (s.writeSlot j v).seeded = s.seeded := rfl
@[simp] theorem State.writeSlot_ctl (s : State) (j : Nat) (v : Word32) : (s.writeSlot j v).ctl = s.ctl := rfl
@[simp] theorem State.writeSlot_inputs (s : State) (j : Nat) (v : Word32) : (s.writeSlot j v).inputs = s.inputs := rfl
@[simp] theorem State.writeSlot_responses (s : State) (j : Nat) (v : Word32) : (s.writeSlot j v).responses = s.responses := rfl

@[simp] theorem State.setIdx_x (s : State) (n : Nat) : (s.setIdx n).x = s.x := rfl
@[simp] theorem State.setIdx_buf (s : State) (n : Nat) : (s.setIdx n).buf = s.buf := rfl
@[simp] theorem State.setIdx_idx (s : State) (n : Nat) : (s.setIdx n).idx = n := rfl
@[simp] theorem State.setIdx_seeded (s : State) (n : Nat) : (s.setIdx n).seeded = s.seeded := rfl
@[simp] theorem State.setIdx_ctl (s : State) (n : Nat) : (s.setIdx n).ctl = s.ctl := rfl
@[simp] theorem State.setIdx_inputs (s : State) (n : Nat) : (s.setIdx n).inputs = s.inputs := rfl
@[simp] theorem State.setIdx_responses (s : State) (n : Nat) : (s.setIdx n).responses = s.responses := rfl

@[simp] theorem State.setSeeded_x (s : State) : (s.setSeeded).x = s.x := rfl
@[simp] theorem State.setSeeded_buf (s : State) : (s.setSeeded).buf = s.buf := rfl
@[simp] theorem State.setSeeded_idx (s : State) : (s.setSeeded).idx = s.idx := rfl
@[simp] theorem State.setSeeded_seeded (s : State) : (s.setSeeded).seeded = true := rfl
@[simp] theorem State.setSeeded_ctl (s : State) : (s.setSeeded).ctl = s.ctl := rfl
@[simp] theorem State.setSeeded_inputs (s : State) : (s.setSeeded).inputs = s.inputs := rfl
@[simp] theorem State.setSeeded_responses (s : State) : (s.setSeeded).responses = s.responses := rfl

@[simp] theorem State.setCtl_x (s : State) (c : Ctl) : (s.setCtl c).x = s.x := rfl
@[simp] theorem State.setCtl_buf (s : State) (c : Ctl) : (s.setCtl c).buf = s.buf := rfl
@[simp] theorem State.setCtl_idx (s : State) (c : Ctl) : (s.setCtl c).idx = s.idx := rfl
@[simp] theorem State.setCtl_seeded (s : State) (c : Ctl) : (s.setCtl c).seeded = s.seeded := rfl
@[simp] theorem State.setCtl_ctl (s : State) (c : Ctl) : (s.setCtl c).ctl = c := rfl
@[simp] theorem State.setCtl_inputs (s : State) (c : Ctl) : (s.setCtl c).inputs = s.inputs := rfl
@[simp] theorem State.setCtl_responses (s : State) (c : Ctl) : (s.setCtl c).responses = s.responses := rfl

@[simp] theorem State.setInputs_x (s : State) (l : List HostInput) : (s.setInputs l).x = s.x := rfl
@[simp] theorem State.setInputs_buf (s : State) (l : List HostInput) : (s.setInputs l).buf = s.buf := rfl
@[simp] theorem State.setInputs_idx (s : State) (l : List HostInput) : (s.setInputs l).idx = s.idx := rfl
@[simp] theorem State.setInputs_seeded (s : State) (l : List HostInput) : (s.setInputs l).seeded = s.seeded := rfl
@[simp] theorem State.setInputs_ctl (s : State) (l : List HostInput) : (s.setInputs l).ctl = s.ctl := rfl
@[simp] theorem State.setInputs_inputs (s : State) (l : List HostInput) : (s.setInputs l).inputs = l := rfl
@[simp] theorem State.setInputs_responses (s : State) (l : List HostInput) : (s.setInputs l).responses = s.responses := rfl

@[simp] theorem State.respond_x (s : State) (v : Word32) : (s.respond v).x = s.x := rfl
@[simp] theorem State.respond_buf (s : State) (v : Word32) : (s.respond v).buf = s.buf := rfl
@[simp] theorem State.respond_idx (s : State) (v : Word32) : (s.respond v).idx = s.idx := rfl
@[simp] theorem State.respond_seeded (s : State) (v : Word32) : (s.respond v).seeded = s.seeded := rfl
@[simp] theorem State.respond_ctl (s : State) (v : Word32) : (s.respond v).ctl = s.ctl := rfl
@[simp] theorem State.respond_inputs (s : State) (v : Word32) : (s.respond v).inputs = s.inputs := rfl
@[simp] theorem State.respond_responses (s : State) (v : Word32) : (s.respond v).responses = s.responses ++ [v] := rfl

@[simp] theorem State.assertReset_x (s : State) (rest : List HostInput) : (s.assertReset rest).x = Engine.zero := rfl
@[simp] theorem State.assertReset_buf (s : State) (rest : List HostInput) : (s.assertReset rest).buf = [] := rfl
@[simp] theorem State.assertReset_idx (s : State) (rest : List HostInput) : (s.assertReset rest).idx = 0 := rfl
@[simp] theorem State.assertReset_seeded (s : State) (rest : List HostInput) : (s.assertReset rest).seeded = false := rfl
@[simp] theorem State.assertReset_ctl (s : State) (rest : List HostInput) : (s.assertReset rest).ctl = .idle := rfl
@[simp] theorem State.assertReset_inputs (s : State) (rest : List HostInput) : (s.assertReset rest).inputs = rest := rfl
@[simp] theorem State.assertReset_responses (s : State) (rest : List HostInput) : (s.assertReset rest).responses = s.responses := rfl

@[simp] theorem State.reset_x : State.reset.x = Engine.zero := rfl
@[simp] theorem State.reset_buf : State.reset.buf = [] := rfl
@[simp] theorem State.reset_idx : State.reset.idx = 0 := rfl
@[simp] theorem State.reset_seeded : State.reset.seeded = false := rfl
@[simp] theorem State.reset_ctl : State.reset.ctl = .idle := rfl
@[simp] theorem State.reset_inputs : State.reset.inputs = [] := rfl
@[simp] theorem State.reset_responses : State.reset.responses = [] := rfl

theorem State.busy_eq_false (s : State) : s.busy = false ↔ s.ctl = .idle := by
  unfold State.busy
  cases s.ctl <;> simp

end Sys2Proof.Machine
end

