-- ==== Sys2Proof/Laws/Memory.lean ====
section
/-! SUPPORT. Reading after writing, and that a write keeps the buffer's canonical form. -/

namespace Sys2Proof.Machine

@[simp] theorem Memory.read_nil (j : Nat) : Memory.read [] j = none := rfl

theorem Memory.read_cons (a : Nat) (w : Word32) (rest : Memory) (j : Nat) :
    Memory.read ((a, w) :: rest) j = if j = a then some w else Memory.read rest j := rfl

@[simp] theorem Memory.read_write_same (m : Memory) (j : Nat) (v : Word32) :
    (m.write j v).read j = some v := by
  induction m with
  | nil => simp [Memory.write, Memory.read]
  | cons e rest ih =>
    obtain ⟨a, w⟩ := e
    simp only [Memory.write]
    split
    · simp [Memory.read]
    · split
      · simp [Memory.read]
      · rw [Memory.read_cons, if_neg (by assumption), ih]

theorem Memory.read_write_other (m : Memory) {i j : Nat} (v : Word32) (h : i ≠ j) :
    (m.write j v).read i = m.read i := by
  induction m with
  | nil => simp [Memory.write, Memory.read, h]
  | cons e rest ih =>
    obtain ⟨a, w⟩ := e
    simp only [Memory.write]
    split
    · rw [Memory.read_cons, if_neg h]
    · split
      · next hja => subst hja; rw [Memory.read_cons, Memory.read_cons, if_neg h, if_neg h]
      · rw [Memory.read_cons, Memory.read_cons, ih]

/-- A written slot is the only one a write adds. -/
theorem Memory.mem_write {m : Memory} {j : Nat} {v : Word32} {e : Nat × Word32}
    (h : e ∈ m.write j v) : e = (j, v) ∨ e ∈ m := by
  induction m with
  | nil => simpa [Memory.write] using h
  | cons f rest ih =>
    obtain ⟨a, w⟩ := f
    simp only [Memory.write] at h
    split at h
    · simpa using h
    · split at h
      · rcases List.mem_cons.1 h with h | h
        · exact .inl h
        · exact .inr (List.mem_cons_of_mem _ h)
      · rcases List.mem_cons.1 h with h | h
        · exact .inr (by simp [h])
        · exact (ih h).imp_right (List.mem_cons_of_mem _)

/-- The canonical form survives a write. -/
theorem Memory.wf_write {m : Memory} (h : m.wf) (j : Nat) (v : Word32) : (m.write j v).wf := by
  induction m with
  | nil => simp [Memory.write]
  | cons f rest ih =>
    obtain ⟨a, w⟩ := f
    obtain ⟨hlt, hrest⟩ := List.pairwise_cons.1 h
    simp only [Memory.write]
    split
    · next hja =>
      refine List.pairwise_cons.2 ⟨?_, h⟩
      intro e he
      rcases List.mem_cons.1 he with rfl | he
      · exact hja
      · exact Nat.lt_trans hja (hlt e he)
    · split
      · next hja => subst hja; exact List.pairwise_cons.2 ⟨hlt, hrest⟩
      · next h1 h2 =>
        refine List.pairwise_cons.2 ⟨?_, ih hrest⟩
        intro e he
        rcases Memory.mem_write he with rfl | he
        · exact Nat.lt_of_le_of_ne (Nat.le_of_not_lt h1) (Ne.symm h2)
        · exact hlt e he

/-- Equal canonical buffers are exactly those that read alike. -/
theorem Memory.ext_of_read {m n : Memory} (hm : m.wf) (hn : n.wf) (h : ∀ j, m.read j = n.read j) :
    m = n := by
  induction m generalizing n with
  | nil =>
    cases n with
    | nil => rfl
    | cons f rest => obtain ⟨a, w⟩ := f; simpa [Memory.read] using h a
  | cons e rest ih =>
    obtain ⟨a, w⟩ := e
    obtain ⟨ha, hrest⟩ := List.pairwise_cons.1 hm
    have none_below : ∀ {l : Memory} {k : Nat}, (∀ e ∈ l, k < e.1) → l.read k = none := by
      intro l k
      induction l with
      | nil => intro _; rfl
      | cons f l ihl =>
        obtain ⟨b, u⟩ := f
        intro hl
        rw [Memory.read_cons, if_neg (Nat.ne_of_lt (hl (b, u) (by simp)))]
        exact ihl fun e he => hl e (List.mem_cons_of_mem _ he)
    cases n with
    | nil => simpa [Memory.read] using h a
    | cons f rest' =>
      obtain ⟨b, u⟩ := f
      obtain ⟨hb, hrest'⟩ := List.pairwise_cons.1 hn
      have hab : a = b := by
        rcases Nat.lt_trichotomy a b with hlt | heq | hgt
        · have := h a
          rw [Memory.read_cons, if_pos rfl, none_below (l := (b, u) :: rest')] at this
          · cases this
          · intro e he
            rcases List.mem_cons.1 he with rfl | he
            · exact hlt
            · exact Nat.lt_trans hlt (hb e he)
        · exact heq
        · have := h b
          rw [Memory.read_cons (j := b) (a := b), if_pos rfl, none_below (l := (a, w) :: rest)] at this
          · cases this
          · intro e he
            rcases List.mem_cons.1 he with rfl | he
            · exact hgt
            · exact Nat.lt_trans hgt (ha e he)
      subst hab
      have hw : w = u := by simpa [Memory.read] using h a
      subst hw
      congr 1
      refine ih hrest hrest' fun j => ?_
      by_cases hj : j = a
      · subst hj; rw [none_below ha, none_below hb]
      · have := h j
        rwa [Memory.read_cons, Memory.read_cons, if_neg hj, if_neg hj] at this

theorem Memory.wf_reset : State.reset.buf.wf := List.Pairwise.nil

theorem State.valid_writeSlot (s : State) (i j : Nat) (v : Word32) :
    (s.writeSlot j v).valid i = (decide (i = j) || s.valid i) := by
  by_cases h : i = j
  · subst h; simp [State.valid]
  · simp [State.valid, Memory.read_write_other _ v h, h]

/-- What reading a slot can do: go on with the slot's word, or stop on an unwritten slot. -/
theorem readSlot_cases (s : State) (j : Nat) (k : Word32 → Result) :
    (∃ v, s.buf.read j = some v ∧ readSlot s j k = k v) ∨
    (s.buf.read j = none ∧ readSlot s j k = .fault (.unwrittenSlot j)) := by
  unfold readSlot
  cases s.buf.read j with
  | none => exact .inr ⟨rfl, rfl⟩
  | some v => exact .inl ⟨v, rfl, rfl⟩

theorem readSlot_some {s : State} {j : Nat} {v : Word32} (h : s.buf.read j = some v) (k : Word32 → Result) :
    readSlot s j k = k v := by
  simp [readSlot, h]

end Sys2Proof.Machine
end

