-- ==== Sys2Proof/Laws/Params.lean ====
section
/-! SUPPORT. The bounds of a build. -/

namespace Sys2Proof

theorem Params.wellFormed_iff (p : Params) : p.wellFormed = true ↔ 1 ≤ p.cap ∧ p.cap ≤ 4294967295 := by
  simp [Params.wellFormed]

/-- The built machine's capacity is within the spec's bounds, whatever its open value. -/
theorem Config.build_wellFormed : Config.build.wellFormed = true := by
  rw [Params.wellFormed_iff]
  exact ⟨Nat.succ_le_succ (Nat.zero_le _), Config.capLessOne.isLt⟩

theorem Config.build_cap_pos : 0 < Config.build.cap := Nat.succ_pos _

theorem Config.defaultBuild_wellFormed : Config.defaultBuild.wellFormed = true := rfl

/-- `IDX_W` bits hold CAP and one bit fewer does not: it is `ceil(log2(CAP + 1))`. -/
theorem Params.idxWidth_spec (p : Params) (h : 0 < p.cap) :
    p.cap < 2 ^ p.idxWidth ∧ 2 ^ (p.idxWidth - 1) ≤ p.cap :=
  ⟨Nat.lt_log2_self, Nat.log2_self_le (Nat.ne_of_gt h)⟩

end Sys2Proof
end

