-- ==== Sys2Proof/Laws/PerInstr.lean ====
section
/-! SUPPORT. One law per command: its word lies in its own row of the opcode table. -/

namespace Sys2Proof.Laws.InOwnRow

/-- The command's word lies in the command's row of the match and mask table (30_encoding.md R72). -/
def Statement (i : Instr) : Prop := (opcodeRow i).holds (encode i) = true

theorem init (a : Word32) : Statement (.init a) := by
  have h : commandWord 0b00#2 a &&& 0x300000000#34 = 0#34 := by
    refine BitVec.eq_of_getLsbD_eq fun i hi => ?_
    have hm : ∀ i < 34, (0x300000000#34).getLsbD i = decide (32 ≤ i) := by decide
    by_cases h : i < 32
    · simp [hm i hi, h]
    · simp [commandWord, hm i hi, Nat.le_of_not_lt h]
  simp [Statement, opcodeRow, OpcodeRow.holds, encode, h]

theorem rdu32 : Statement .rdu32 := by
  show (opcodeRow .rdu32).holds (encode .rdu32) = true
  decide

theorem rdf32 : Statement .rdf32 := by
  show (opcodeRow .rdf32).holds (encode .rdf32) = true
  decide

end Sys2Proof.Laws.InOwnRow
end

