-- ==== Sys2Proof/Laws/Reads.lean ====
section
/-! SUPPORT. Everything a command's shared operation and the controller can do, one lemma each. -/

namespace Sys2Proof.Machine

/-- Everything a read can do. -/
theorem readWith_cases (p : Params) (k : ReadKind) (s : State) :
    (s.seeded = false ∧ readWith p k s = .fault (.unseededRead (encode (readInstr k)))) ∨
    (s.seeded = true ∧ s.idx < p.cap ∧ ∃ v, s.buf.read s.idx = some v ∧
      readWith p k s = .next ((s.setIdx (s.idx + 1)).respond (answer p k v))) ∨
    (s.seeded = true ∧ s.idx < p.cap ∧ s.buf.read s.idx = none ∧
      readWith p k s = .fault (.unwrittenSlot s.idx)) ∨
    (s.seeded = true ∧ p.cap ≤ s.idx ∧ readWith p k s = .next (s.setCtl (.refill 0 k))) := by
  unfold readWith
  cases hs : s.seeded with
  | false => exact .inl ⟨rfl, by simp [raiseFault]⟩
  | true =>
    by_cases hi : s.idx < p.cap
    · obtain ⟨v, hv, hr⟩ | ⟨hv, hr⟩ := readSlot_cases s s.idx
        (fun v => .next ((s.setIdx (s.idx + 1)).respond (answer p k v)))
      · exact .inr (.inl ⟨rfl, hi, v, hv, by simp [hi, hr]⟩)
      · exact .inr (.inr (.inl ⟨rfl, hi, hv, by simp [hi, hr]⟩))
    · exact .inr (.inr (.inr ⟨rfl, Nat.le_of_not_lt hi, by simp [hi]⟩))

/-- Everything the end of a refill can do. -/
theorem refillDone_cases (p : Params) (k : ReadKind) (s : State) :
    (∃ v, s.buf.read 0 = some v ∧
      refillDone p k s = .next (((s.setIdx 1).respond (answer p k v)).setCtl .idle)) ∨
    (s.buf.read 0 = none ∧ refillDone p k s = .fault (.unwrittenSlot 0)) := by
  obtain ⟨v, hv, hr⟩ | ⟨hv, hr⟩ := readSlot_cases (s.setIdx 0) 0
    (fun v => .next ((((s.setIdx 0).setIdx 1).respond (answer p k v)).setCtl .idle))
  · exact .inl ⟨v, hv, hr⟩
  · exact .inr ⟨hv, hr⟩

/-- Everything the controller can do in one step. -/
theorem controllerStep_cases (p : Params) (s : State) :
    (s.ctl = .idle ∧ controllerStep p s = .next s) ∨
    (∃ i k, s.ctl = .refill i k ∧ i < p.cap ∧ controllerStep p s = .next (refillStep p i k s)) ∨
    (∃ i k, s.ctl = .refill i k ∧ p.cap ≤ i ∧ controllerStep p s = refillDone p k s) := by
  unfold controllerStep
  cases hc : s.ctl with
  | idle => exact .inl ⟨rfl, rfl⟩
  | refill i k =>
    by_cases hi : i < p.cap
    · exact .inr (.inl ⟨i, k, rfl, hi, by simp [hi]⟩)
    · exact .inr (.inr ⟨i, k, rfl, Nat.le_of_not_lt hi, by simp [hi]⟩)

theorem initWith_eq (p : Params) (a : Word32) (s : State) : initWith p a s =
    .next { s with x := p.seedExpand (p.baseSeed + a), idx := p.cap, seeded := true } := rfl

/-- Filling `n` slots leaves the slots from `n` on. -/
theorem fillSlots_read (p : Params) (e : Engine) (n : Nat) (m : Memory) (j : Nat) :
    (fillSlots p e n m).read j = if j < n then some (streamWord p e j) else m.read j := by
  induction n with
  | zero => simp [fillSlots]
  | succ n ih =>
    by_cases hj : j = n
    · subst hj; simp [fillSlots]
    · rw [fillSlots, Memory.read_write_other _ _ hj, ih]
      have : j < n + 1 ↔ j < n := by omega
      simp [this]

end Sys2Proof.Machine
end

