-- ==== Sys2Proof/Laws/Step.lean ====
section
/-! SUPPORT. The step by its input and controller, and that the built machine is the parametric one at its build. -/

namespace Sys2Proof.Machine

theorem exec_eq_execWith (i : Instr) (s : State) : exec i s = execWith Config.build i s := by
  cases i <;> rfl

/-- The built machine is the parametric machine at its own build. -/
theorem step_eq_stepWith (s : State) : step s = stepWith Config.build s :=
  congrArg (fun f => stepBy Config.build f s) (funext₂ exec_eq_execWith)

theorem stepBy_reset (p : Params) (run : Instr → State → Result) {s : State} {rest : List HostInput}
    (h : s.inputs = .reset :: rest) : stepBy p run s = .next (s.assertReset rest) := by
  simp [stepBy, h]

theorem stepBy_wait (p : Params) (run : Instr → State → Result) {s : State} {rest : List HostInput}
    (h : s.inputs = .wait :: rest) : stepBy p run s = controllerStep p (s.setInputs rest) := by
  simp [stepBy, h]

theorem stepBy_accept (p : Params) (run : Instr → State → Result) {s : State} {w : Command}
    {rest : List HostInput} (h : s.inputs = .cmd w :: rest) (hc : s.ctl = .idle) :
    stepBy p run s = acceptWith run w (s.setInputs rest) := by
  simp [stepBy, h, hc]

theorem stepBy_busy (p : Params) (run : Instr → State → Result) {s : State} {w : Command}
    {rest : List HostInput} (h : s.inputs = .cmd w :: rest) {i : Nat} {k : ReadKind}
    (hc : s.ctl = .refill i k) : stepBy p run s = controllerStep p s := by
  simp [stepBy, h, hc]

theorem stepBy_quiet (p : Params) (run : Instr → State → Result) {s : State} (h : s.inputs = []) :
    stepBy p run s = controllerStep p s := by
  simp [stepBy, h]

/-- Everything one step can be: a reset, a move of the controller, or a command taken at IDLE. -/
theorem stepBy_cases (p : Params) (run : Instr → State → Result) (s : State) :
    (∃ rest, s.inputs = .reset :: rest ∧ stepBy p run s = .next (s.assertReset rest)) ∨
    (∃ rest, s.inputs = .wait :: rest ∧ stepBy p run s = controllerStep p (s.setInputs rest)) ∨
    (∃ w rest, s.inputs = .cmd w :: rest ∧ s.ctl = .idle ∧
      stepBy p run s = acceptWith run w (s.setInputs rest)) ∨
    ((s.inputs = [] ∨ s.ctl ≠ .idle) ∧ stepBy p run s = controllerStep p s) := by
  rcases hin : s.inputs with _ | ⟨_ | _ | _, rest⟩
  · exact .inr (.inr (.inr ⟨.inl rfl, stepBy_quiet p run hin⟩))
  · next w =>
    cases hc : s.ctl with
    | idle => exact .inr (.inr (.inl ⟨w, rest, rfl, rfl, stepBy_accept p run hin hc⟩))
    | refill i k => exact .inr (.inr (.inr ⟨.inr (by simp), stepBy_busy p run hin hc⟩))
  · exact .inl ⟨rest, rfl, stepBy_reset p run hin⟩
  · exact .inr (.inl ⟨rest, rfl, stepBy_wait p run hin⟩)

/-- Everything accepting a word can be. -/
theorem acceptWith_cases (run : Instr → State → Result) (w : Command) (s : State) :
    (∃ i, decode w = .instr i ∧ acceptWith run w s = run i s) ∨
    (decode w = .illegal .reservedOp ∧ acceptWith run w s = .refused (.reservedOp w)) ∨
    (decode w = .illegal .nonzeroArg ∧ acceptWith run w s = .refused (.nonzeroArg w)) := by
  unfold acceptWith refuse
  rcases decode w with i | _ | _
  · exact .inl ⟨i, rfl, rfl⟩
  · exact .inr (.inr ⟨rfl, rfl⟩)
  · exact .inr (.inl ⟨rfl, rfl⟩)

/-- Everything a controller's move that answers a state can be. -/
theorem controllerStep_next {p : Params} {s t : State} (h : controllerStep p s = .next t) :
    (s.ctl = .idle ∧ t = s) ∨
    (∃ i k, s.ctl = .refill i k ∧ i < p.cap ∧ t = refillStep p i k s) ∨
    (∃ i k v, s.ctl = .refill i k ∧ p.cap ≤ i ∧ s.buf.read 0 = some v ∧
      t = ((s.setIdx 1).respond (answer p k v)).setCtl .idle) := by
  obtain ⟨hc, he⟩ | ⟨i, k, hc, hi, he⟩ | ⟨i, k, hc, hi, he⟩ := controllerStep_cases p s
  · rw [he] at h
    cases h
    exact .inl ⟨hc, rfl⟩
  · rw [he] at h
    cases h
    exact .inr (.inl ⟨i, k, hc, hi, rfl⟩)
  · obtain ⟨v, hv, hd⟩ | ⟨_, hd⟩ := refillDone_cases p k s
    · rw [he, hd] at h
      cases h
      exact .inr (.inr ⟨i, k, v, hc, hi, hv, rfl⟩)
    · rw [he, hd] at h
      cases h

/-- Everything a read that answers a state can be. -/
theorem readWith_next {p : Params} {k : ReadKind} {s t : State} (h : readWith p k s = .next t) :
    s.seeded = true ∧
    ((∃ v, s.idx < p.cap ∧ s.buf.read s.idx = some v ∧
        t = (s.setIdx (s.idx + 1)).respond (answer p k v)) ∨
      (p.cap ≤ s.idx ∧ t = s.setCtl (.refill 0 k))) := by
  obtain ⟨_, he⟩ | ⟨hs, hi, v, hv, he⟩ | ⟨_, _, _, he⟩ | ⟨hs, hi, he⟩ := readWith_cases p k s
  · rw [he] at h
    cases h
  · rw [he] at h
    cases h
    exact ⟨hs, .inl ⟨v, hi, hv, rfl⟩⟩
  · rw [he] at h
    cases h
  · rw [he] at h
    cases h
    exact ⟨hs, .inr ⟨hi, rfl⟩⟩

/-- Everything a command that answers a state can be. -/
theorem execWith_next {p : Params} {i : Instr} {s t : State} (h : execWith p i s = .next t) :
    (∃ a, i = .init a ∧ t = ((s.setX (p.seedExpand (seedOf p a))).setIdx p.cap).setSeeded) ∨
    (∃ k, i = readInstr k ∧ readWith p k s = .next t) := by
  cases i with
  | init a =>
    cases h
    exact .inl ⟨a, rfl, rfl⟩
  | rdu32 => exact .inr ⟨.u32, rfl, h⟩
  | rdf32 => exact .inr ⟨.f32, rfl, h⟩

/-- Everything a step that answers a state can be: a reset; a move of the controller, with the inputs as they are or one pause
shorter; or a command taken at IDLE. -/
theorem stepWith_next {p : Params} {s t : State} (h : stepWith p s = .next t) :
    (∃ rest, s.inputs = .reset :: rest ∧ t = s.assertReset rest) ∨
    (∃ l, (l = s.inputs ∨ s.inputs = .wait :: l) ∧ controllerStep p (s.setInputs l) = .next t) ∨
    (∃ w rest i, s.inputs = .cmd w :: rest ∧ s.ctl = .idle ∧ decode w = .instr i ∧
      execWith p i (s.setInputs rest) = .next t) := by
  obtain ⟨rest, hin, he⟩ | ⟨rest, hin, he⟩ | ⟨w, rest, hin, hc, he⟩ | ⟨_, he⟩ := stepBy_cases p (execWith p) s
  · rw [stepWith, he] at h
    cases h
    exact .inl ⟨rest, hin, rfl⟩
  · exact .inr (.inl ⟨rest, .inr hin, by rw [← he]; exact h⟩)
  · obtain ⟨i, hd, ha⟩ | ⟨_, ha⟩ | ⟨_, ha⟩ := acceptWith_cases (execWith p) w (s.setInputs rest)
    · exact .inr (.inr ⟨w, rest, i, hin, hc, hd, by rw [← ha, ← he]; exact h⟩)
    · rw [stepWith, he, ha] at h
      cases h
    · rw [stepWith, he, ha] at h
      cases h
  · exact .inr (.inl ⟨s.inputs, .inl rfl, by rw [← h, stepWith, he]; rfl⟩)

/-- The host's runs of the built machine are the runs of the parametric one at its build. -/
theorem core_run_eq_runWith (n : Nat) (s : State) : core.run n s = runWith Config.build n s := by
  induction n generalizing s with
  | zero => rfl
  | succ n ih =>
    cases h : step s with
    | next t =>
      have hc : core.step s = .next t := h
      simp only [Host.Core.run, hc, runWith, ← step_eq_stepWith, h]
      exact ih t
    | fault r =>
      have hc : core.step s = .fault r := h
      simp only [Host.Core.run, hc, runWith, ← step_eq_stepWith, h]
      rfl
    | refused r =>
      have hc : core.step s = .refused r := h
      simp only [Host.Core.run, hc, runWith, ← step_eq_stepWith, h]
      rfl

end Sys2Proof.Machine
end

