-- ==== Sys2Proof/Tests/Slice0.lean ====
section
/-! SUPPORT. Tests with results from 95_test_vectors.md and the spec's worked examples, and for every statement with hypotheses
a state that meets them. -/

namespace Sys2Proof.Tests

open Sys2Proof.Machine

/-! ### Helpers -/

/-- The example seeding function `STUB` of 95_test_vectors.md section 6. -/
def stub (x : Word32) : Engine := ⟨x.setWidth 64 + 1, 2, 3, 4⟩

/-- The shared parameters of 95_test_vectors.md section 6, for a capacity and a base seed. -/
def testBuild (cap : Nat) (base : Word32) : Params := ⟨cap, base, stub, .low32, .rne⟩

/-- The engine state `s* = (1, 2, 3, 4)` of the worked examples. -/
def start : Engine := ⟨1, 2, 3, 4⟩

/-- A seeded idle block. -/
def seededBlock (e : Engine) (idx : Nat) (buf : Memory) (inputs : List HostInput) : State :=
  { State.reset with x := e, idx := idx, buf := buf, seeded := true, inputs := inputs }

/-- The block that `seededBlock` gives, in the middle of a refill. -/
def refilling (e : Engine) (i : Nat) (k : ReadKind) (buf : Memory) (inputs : List HostInput) : State :=
  { seededBlock e Config.build.cap buf inputs with ctl := .refill i k }

/-- The state a result goes on with. -/
def nextOf : Result → Option State
  | .next s => some s
  | _ => none

/-- The fault a result stops with. -/
def faultOf : Result → Option Fault
  | .fault f => some f
  | _ => none

/-- The refusal a result stops with. -/
def refusalOf : Result → Option Refusal
  | .refused r => some r
  | _ => none

/-! ### Well-formedness: each check refuses its ill-formed term -/

theorem test_wf_capacity_zero : (testBuild 0 0).wellFormed = false := by decide
theorem test_wf_capacity_too_large : (testBuild 4294967296 0).wellFormed = false := by decide
theorem test_wf_capacity_bounds :
    (testBuild 1 0).wellFormed = true ∧ (testBuild 4294967295 0).wellFormed = true := by decide

/-- Every command is well-formed (60_exceptions.md R200). -/
theorem test_wf_every_command (i : Instr) : i.wellFormed = true := by cases i <;> rfl

/-- A literal of 33 bits, a read with an operand and a literal with no digit are no lines of 30_encoding.md R78. -/
theorem test_asm_refuses :
    assembleLine ['I', 'N', 'I', 'T', ' ', '0', 'x', '1', '0', '0', '0', '0', '0', '0', '0', '0'] = .error ∧
    assembleLine ['R', 'D', 'U', '3', '2', ' ', '0'] = .error ∧
    assembleLine ['I', 'N', 'I', 'T', ' ', '0', 'x'] = .error := by decide

/-- 30_encoding.md R78: no operand is operand 0, and a comment ends the line. -/
theorem test_asm_lines :
    assembleLines [['I', 'N', 'I', 'T', ';', '3'], [], ['R', 'D', 'U', '3', '2'], ['R', 'D', 'F', '3', '2', ' ']] =
      some [0x000000000#34, 0x100000000#34, 0x200000000#34] := by decide

/-! ### Decoding: words written out from 30_encoding.md R70 and R72, and X1 to X8 of 95_test_vectors.md -/

theorem test_decode_init : decode 0b0011111111111111111111111111111111#34 = .instr (.init 0xFFFFFFFF) := by decide
theorem test_decode_rdu32 : decode 0b0100000000000000000000000000000000#34 = .instr .rdu32 := by decide
theorem test_decode_rdf32 : decode 0b1000000000000000000000000000000000#34 = .instr .rdf32 := by decide
theorem test_decode_x5 : decode 0x100000001#34 = .illegal .nonzeroArg := by decide
theorem test_decode_x6 : decode 0x280000000#34 = .illegal .nonzeroArg := by decide
theorem test_decode_x8 : decode 0x3FFFFFFFF#34 = .illegal .reservedOp := by decide
theorem test_encode_init : encode (.init 0x80000001) = 0x080000001#34 := by decide
theorem test_encode_reads : encode .rdu32 = 0x100000000#34 ∧ encode .rdf32 = 0x200000000#34 := by decide
theorem test_table_words : decodeTableWord 40 0x000000007 = some (.init 7) ∧
    decodeTableWord 40 0x100000000 = some .rdu32 ∧ decodeTableWord 40 0x200000000 = some .rdf32 ∧
    decodeTableWord 40 0x300000000 = none ∧ decodeTableWord 40 0x400000000 = none := by decide

/-! ### Engine and conversion: vectors E1, E7, E11 and F7, F9, F11, F12, F17 to F19 -/

theorem test_engine_E1 : out64 start = 5 ∧ T start = ⟨0x7, 0x0, 0x40002, 0xC00000000000⟩ := by decide
theorem test_engine_E7 : out64 ⟨-1, -1, -1, -1⟩ = 0xFFFFFFFFFFFFFFFE ∧
    T ⟨-1, -1, -1, -1⟩ = ⟨0xFFFFFFFFFFFFFFFF, 0xFFFFFFFFFFFFFFFF, 0xFFFFFFFFFFFE0000, 0⟩ := by decide
theorem test_engine_E11 :
    T ⟨0x0123456789ABCDEF, 0xFEDCBA9876543210, 0x0F0F0F0F0F0F0F0F, 0xF0F0F0F0F0F0F0F0⟩ =
      ⟨0x0F0F0F0F0F0F0F0F, 0xF0F0F0F0F0F0F0F0, 0x7B1CA6C0E284C2E0, 0x985C01C5894D10D4⟩ := by decide
theorem test_engine_halves : low32 0xF21436587A9CBEDF = 0x7A9CBEDF ∧ high32 0xF21436587A9CBEDF = 0xF2143658 := by decide
theorem test_f32_ties : f32bits .rne 0x01000001 = 0x3B800000 ∧ f32bits .rne 0x01000003 = 0x3B800002 ∧
    f32bits .rtz 0x01000003 = 0x3B800001 := by decide
theorem test_f32_F11 : f32bits .rne 0x12345678 = 0x3D91A2B4 ∧ f32bits .rtz 0x12345678 = 0x3D91A2B3 := by decide
theorem test_f32_carry : f32bits .rne 0x7FFFFFFF = 0x3F000000 ∧ f32bits .rtz 0x7FFFFFFF = 0x3EFFFFFF := by decide
theorem test_f32_near_one : f32bits .rne 0xFFFFFF7F = 0x3F7FFFFF ∧ f32bits .rne 0xFFFFFF80 = 0x3F800000 ∧
    f32bits .rtz 0xFFFFFFFF = 0x3F7FFFFF := by decide

/-! ### One step: P1, P2, T4, X9, X10 -/

/-- P2: the seed sum wraps, and the buffer's old slot stays. -/
theorem test_init_wraps :
    nextOf (stepWith (testBuild 2 0xFFFFFFFE) { State.reset with inputs := [.cmd 0x000000003], buf := [(1, 9)] }) =
      some (seededBlock ⟨2, 2, 3, 4⟩ 2 [(1, 9)] []) := by decide

/-- P1: INIT on a seeded block restarts it. -/
theorem test_init_again :
    nextOf (stepWith (testBuild 4 0) (seededBlock Engine.zero 1 [] [.cmd 0x000000000])) =
      some (seededBlock start 4 [] []) := by decide

/-- T4, draw 3: the last slot is answered and the cursor stands at CAP. -/
theorem test_rdu32_last_slot :
    (nextOf (stepWith (testBuild 4 0) (seededBlock start 3 [(3, 0x18040302)] [.cmd 0x100000000]))).map
      (fun t => (t.idx, t.ctl, t.responses)) = some (4, .idle, [0x18040302]) := by decide

/-- T4, draw 4: an exhausted buffer answers nothing at once. -/
theorem test_rdu32_exhausted :
    (nextOf (stepWith (testBuild 4 0) (seededBlock start 4 [(3, 0x18040302)] [.cmd 0x100000000]))).map
      (fun t => (t.idx, t.ctl, t.responses)) = some (4, .refill 0 .u32, []) := by decide

/-- P1, third read: the slot word 0x18000007 as binary32. -/
theorem test_rdf32_slot :
    (nextOf (stepWith (testBuild 4 0) (seededBlock start 2 [(2, 0x18000007)] [.cmd 0x200000000]))).map
      (fun t => (t.idx, t.responses)) = some (3, [0x3DC00000]) := by decide

/-- X9: a read after reset. -/
theorem test_rdf32_unseeded :
    faultOf (stepWith (testBuild 4 0) { State.reset with inputs := [.cmd 0x200000000] }) =
      some (.unseededRead 0x200000000) := by decide

/-- X10: the illegal argument is found before the missing seed. -/
theorem test_refusal_first :
    refusalOf (stepWith (testBuild 4 0) { State.reset with inputs := [.cmd 0x100000007] }) =
      some (.nonzeroArg 0x100000007) := by decide

/-- T4: the first slot step of the first fill. -/
theorem test_refill_slot_step :
    (nextOf (controllerStep (testBuild 4 0) { seededBlock start 4 [] [] with ctl := .refill 0 .u32 })).map
      (fun t => (t.x, t.buf, t.ctl)) =
      some (⟨0x7, 0x0, 0x40002, 0xC00000000000⟩, [(0, 0x00000005)], .refill 1 .u32) := by decide

/-- P6: under HIGH32 the second slot step keeps the upper half of the output. -/
theorem test_refill_slot_step_high :
    (nextOf (controllerStep { testBuild 4 0 with outSel := .high32 }
      { seededBlock ⟨0x7, 0x0, 0x40002, 0xC00000000000⟩ 4 [] [] with ctl := .refill 1 .u32 })).map
      (fun t => t.buf) = some [(1, 0x0000C000)] := by decide

/-- T4: the end of the first fill answers slot 0. -/
theorem test_refill_done :
    (nextOf (controllerStep (testBuild 1 0) { seededBlock start 1 [(0, 5)] [] with ctl := .refill 1 .f32 })).map
      (fun t => (t.idx, t.ctl, t.responses)) = some (1, .idle, [0x30A00000]) := by decide

/-- The first step after reset runs the presented command; the built machine's seed is open. -/
theorem test_fetch_init : (nextOf (step (State.reset.withFetchWord 40 7))).map (fun t => (t.seeded, t.ctl, t.inputs)) =
    some (true, .idle, []) := rfl
theorem test_fetch_rdu32 : faultOf (step (State.reset.withFetchWord 40 0x100000000)) =
    some (.unseededRead 0x100000000) := rfl
theorem test_fetch_rdf32 : faultOf (step (State.reset.withFetchWord 40 0x200000000)) =
    some (.unseededRead 0x200000000) := rfl

/-! ### Witnesses: for each statement with hypotheses, a state that meets them -/

/-- A full buffer of the built machine. -/
def fullBuffer : Memory := fillSlots Config.build start Config.build.cap []

theorem fullBuffer_read {j : Nat} (h : j < Config.build.cap) :
    fullBuffer.read j = some (streamWord Config.build start j) := by
  simp [fullBuffer, fillSlots_read, h]

/-- A leading zero with a comment, and both cases of a hexadecimal letter. -/
theorem wit_AssemblerReadsEveryOffset : ∃ (ds : List Nat) (es : List (Nat × Bool)) (rest : List Char),
    ds ≠ [] ∧ (∀ d ∈ ds, d < 10) ∧ Nat.ofDigits 10 ds.reverse < 2 ^ 32 ∧ decimalText ds = ['0', '4', '2'] ∧
    es ≠ [] ∧ (∀ d ∈ es, d.1 < 16) ∧ Nat.ofDigits 16 (es.map Prod.fst).reverse < 2 ^ 32 ∧
    hexText es = ['F', 'a', '9'] ∧ LineRest rest ∧ rest = [';', 'x'] :=
  ⟨[0, 4, 2], [(15, true), (10, false), (9, true)], [';', 'x'], by decide, by decide, by decide, by decide,
    by decide, by decide, by decide, by decide, .inr ⟨_, rfl⟩, rfl⟩

/-- The largest literal and the first one out of range. -/
theorem wit_AssemblerReadsEveryOffset_range :
    Nat.ofDigits 10 [4, 2, 9, 4, 9, 6, 7, 2, 9, 5].reverse = 2 ^ 32 - 1 ∧
    ¬Nat.ofDigits 10 [4, 2, 9, 4, 9, 6, 7, 2, 9, 6].reverse < 2 ^ 32 := by decide

theorem wit_AssemblerReadsLinesWithoutLiteral : LineRest [] ∧ LineRest [';'] := ⟨.inl rfl, .inr ⟨[], rfl⟩⟩

theorem wit_OutputSumAndHalves :
    (testBuild 4 0).outSel = .low32 ∧ { testBuild 4 0 with outSel := .high32 }.outSel = .high32 := ⟨rfl, rfl⟩

/-- The least and the greatest rotation, the lowest and the highest bit. -/
theorem wit_RotationMovesEachBit : ∃ m n i j : Nat,
    (1 ≤ m ∧ m ≤ 63 ∧ m = 1) ∧ (1 ≤ n ∧ n ≤ 63 ∧ n = 63) ∧ (i < 64 ∧ i = 0) ∧ (j < 64 ∧ j = 63) :=
  ⟨1, 63, 0, 63, by decide⟩

theorem wit_BuildParameterDefaults :
    Config.defaultBuild = { baseSeed := Config.baseSeed, seedExpand := Config.seedExpand } := rfl

theorem wit_StepRunsTheDecodedCommand : ∃ (s : State) (w : Command) (rest : List HostInput) (i : Instr),
    s.ctl = .idle ∧ s.inputs = .cmd w :: rest ∧ decode w = .instr i :=
  ⟨{ State.reset with inputs := [.cmd 0x100000000] }, 0x100000000, [], .rdu32, rfl, rfl, by decide⟩

theorem wit_IllegalWordsAreRefusedFirst : ∃ s t u : State,
    (s.ctl = .idle ∧ s.inputs = .cmd 0x300000000 :: [] ∧ opField 0x300000000 = 0b11#2) ∧
    (t.ctl = .idle ∧ t.inputs = .cmd 0x100000001 :: [] ∧ opField 0x100000001 = 0b01#2 ∧
      argField 0x100000001 ≠ 0) ∧
    (u.ctl = .idle ∧ u.inputs = .cmd 0x280000000 :: [] ∧ opField 0x280000000 = 0b10#2 ∧
      argField 0x280000000 ≠ 0) :=
  ⟨{ State.reset with inputs := [.cmd 0x300000000] }, { State.reset with inputs := [.cmd 0x100000001] },
    { State.reset with inputs := [.cmd 0x280000000] }, by decide⟩

/-- A command waits during a slot step, and during the step that ends the refill. -/
theorem wit_CommandWaitsWhileBusy : ∃ s t s' t' : State,
    (s.busy = true ∧ s.inputs = [.cmd 0] ∧ step s = .next t) ∧
    (s'.busy = true ∧ s'.inputs = [.cmd 0] ∧ step s' = .next t' ∧ t'.busy = false) := by
  refine ⟨refilling start 0 .u32 [] [.cmd 0], _, refilling start Config.build.cap .u32 [(0, 5)] [.cmd 0],
    (refilling start Config.build.cap .u32 [(0, 5)] [.cmd 0] |>.setIdx 1 |>.respond 5 |>.setCtl .idle),
    ⟨rfl, rfl, rfl⟩, rfl, rfl, ?_, rfl⟩
  simp [step, stepBy, refilling, controllerStep, refillDone, readSlot, Memory.read, answer, seededBlock,
    State.setIdx, State.respond, State.setCtl]

theorem wit_IdleBlockHoldsItsState : State.reset.ctl = .idle ∧ State.reset.inputs = [] := ⟨rfl, rfl⟩

theorem wit_ResetAbandonsEverything : ∃ (s : State) (rest : List HostInput),
    s.inputs = .reset :: rest ∧ s.ctl = .refill 1 .u32 :=
  ⟨refilling start 1 .u32 [(0, 5)] [.reset], [], rfl, rfl⟩

theorem wit_InitStartsTheStream : State.reset.ctl = .idle := rfl

theorem wit_ReadResult_unseeded : State.reset.seeded = false := rfl

/-- A read of the first slot, and one of the last. -/
theorem wit_ReadResult_slot : ∃ s t : State,
    (s.seeded = true ∧ s.idx < Config.build.cap ∧ s.buf.read s.idx = some 5) ∧
    (t.seeded = true ∧ t.idx < Config.build.cap ∧ t.idx + 1 = Config.build.cap ∧ t.buf.read t.idx = some 5) :=
  ⟨seededBlock start 0 [(0, 5)] [], seededBlock start Config.capLessOne.val [(Config.capLessOne.val, 5)] [],
    ⟨rfl, Config.build_cap_pos, rfl⟩, rfl, Nat.lt_succ_self _, rfl, by simp [seededBlock, Memory.read]⟩

theorem wit_ReadResult_unwritten : ∃ s : State,
    s.seeded = true ∧ s.idx < Config.build.cap ∧ s.buf.read s.idx = none :=
  ⟨seededBlock start 0 [] [], rfl, Config.build_cap_pos, rfl⟩

theorem wit_ReadResult_exhausted : ∃ s : State, s.seeded = true ∧ s.idx = Config.build.cap :=
  ⟨seededBlock start Config.build.cap [] [], rfl, rfl⟩

theorem wit_CommandsFrame : ∃ s t t' t'' : State,
    exec (.init 3) s = .next t ∧
    (exec .rdu32 (seededBlock start 0 [(0, 5)] []) = .next t' ∧
      (seededBlock start 0 [(0, 5)] []).idx < Config.build.cap) ∧
    (exec .rdf32 (seededBlock start Config.build.cap [] []) = .next t'' ∧
      Config.build.cap ≤ (seededBlock start Config.build.cap [] []).idx) :=
  ⟨State.reset, _, seededBlock start 1 [(0, 5)] [] |>.respond 5,
    refilling start 0 .f32 [] [], rfl,
    ⟨by simp [exec, execRdu32, readWith, seededBlock, readSlot, Memory.read, answer, Config.build_cap_pos,
        State.setIdx, State.respond], Config.build_cap_pos⟩,
    by simp [exec, execRdf32, readWith, seededBlock, refilling, State.setCtl], Nat.le_refl _⟩

/-- The first slot step of a fill, and the last. -/
theorem wit_RefillSlotStepResult : ∃ (s t : State) (k : ReadKind),
    (s.ctl = .refill 0 k ∧ 0 < Config.build.cap ∧ HostSteady s) ∧
    (t.ctl = .refill Config.capLessOne.val k ∧ Config.capLessOne.val < Config.build.cap ∧ HostSteady t) :=
  ⟨refilling start 0 .u32 [] [], refilling start Config.capLessOne.val .u32 [] [.cmd 0], .u32,
    ⟨rfl, Config.build_cap_pos, .inl rfl⟩, rfl, Nat.lt_succ_self _, .inr ⟨0, [], rfl⟩⟩

theorem wit_RefillDoneResult : ∃ s t : State,
    (HostSteady s ∧ s.buf.read 0 = some 5 ∧ s.ctl = .refill Config.build.cap .u32) ∧
    (HostSteady t ∧ t.buf.read 0 = some 5 ∧ t.ctl = .refill Config.build.cap .f32) :=
  ⟨refilling start Config.build.cap .u32 [(0, 5)] [], refilling start Config.build.cap .f32 [(0, 5)] [],
    ⟨.inl rfl, rfl, rfl⟩, .inl rfl, rfl, rfl⟩

theorem wit_RefillStepsAreOneAtomicRefill : ∃ (s : State) (k : ReadKind), s.ctl = .refill 0 k ∧ HostSteady s :=
  ⟨refilling start 0 .f32 [] [], .f32, rfl, .inl rfl⟩

/-- An idle block whose cursor stands at CAP, or whose buffer is full, meets the invariant. -/
theorem inv_of_idle {s : State} (hc : s.ctl = .idle) (hw : s.buf.wf) (hr : ∀ e ∈ s.buf, e.1 < Config.build.cap)
    (hi : s.idx ≤ Config.build.cap)
    (hf : s.idx < Config.build.cap → ∀ j < Config.build.cap, s.valid j = true) : Inv Config.build s where
  canonical := hw
  slotsInRange := hr
  cursorInRange _ := hi
  fullWhenReadable _ _ h := hf h
  duringRefill i k h := by simp [hc] at h

theorem fullBuffer_inv (idx : Nat) (inputs : List HostInput) (h : idx ≤ Config.build.cap) :
    Inv Config.build (seededBlock start idx fullBuffer inputs) := by
  have fill : ∀ n, (fillSlots Config.build start n []).wf ∧ ∀ e ∈ fillSlots Config.build start n [], e.1 < n := by
    intro n
    induction n with
    | zero => exact ⟨List.Pairwise.nil, by simp [fillSlots]⟩
    | succ n ih =>
      refine ⟨Memory.wf_write ih.1 _ _, fun e he => ?_⟩
      rcases Memory.mem_write he with rfl | he
      · exact Nat.lt_succ_self _
      · exact Nat.lt_succ_of_lt (ih.2 e he)
  refine inv_of_idle rfl (fill _).1 (fill _).2 h fun _ j hj => ?_
  show (fullBuffer.read j).isSome = true
  simp [fullBuffer_read hj]

theorem wit_CommandsCompleteInBoundedSteps :
    (∃ s, Inv Config.build s ∧ s.ctl = .idle ∧ s.inputs = [.cmd (encode (.init 3))]) ∧
    (∃ s k, Inv Config.build s ∧ s.ctl = .idle ∧ s.seeded = true ∧
      s.inputs = [.cmd (encode (readInstr k))] ∧ s.idx < Config.build.cap) ∧
    (∃ s k, Inv Config.build s ∧ s.ctl = .idle ∧ s.seeded = true ∧
      s.inputs = [.cmd (encode (readInstr k))] ∧ s.idx = Config.build.cap) :=
  ⟨⟨_, fullBuffer_inv 0 [.cmd (encode (.init 3))] (Nat.zero_le _), rfl, rfl⟩,
    ⟨_, .u32, fullBuffer_inv 0 [.cmd (encode (readInstr .u32))] (Nat.zero_le _), rfl, rfl, rfl, Config.build_cap_pos⟩,
    ⟨_, .f32, fullBuffer_inv Config.build.cap [.cmd (encode (readInstr .f32))] (Nat.le_refl _), rfl, rfl, rfl, rfl⟩⟩

theorem fillCount_zero : fillCount Config.build 0 = 0 :=
  Nat.div_eq_of_lt (by have := Config.build_cap_pos; omega)

theorem fillCount_one : fillCount Config.build 1 = 1 := by
  have h := Config.build_cap_pos
  rw [fillCount, Nat.add_comm, Nat.add_sub_cancel, Nat.div_self h]

/-- The state of no draws, and the state of one draw. -/
theorem afterDraws_zero (inputs : List HostInput) :
    AfterDraws Config.build start 0 (seededBlock start Config.build.cap [] inputs) :=
  ⟨rfl, rfl, by rw [fillCount_zero]; simp [seededBlock], fun _ => rfl, fun h => absurd h (Nat.lt_irrefl _),
    fun h => absurd h (Nat.lt_irrefl _)⟩

theorem afterDraws_one (inputs : List HostInput) :
    AfterDraws Config.build start 1 (seededBlock (iterT Config.build.cap start) 1 fullBuffer inputs) :=
  ⟨rfl, rfl, by rw [fillCount_one]; simp [seededBlock], fun h => absurd h (by decide),
    fun _ => by rw [fillCount_one]; simp [seededBlock],
    fun _ j hj => by rw [fillCount_one]; simpa [seededBlock] using fullBuffer_read hj⟩

theorem wit_StreamContinuesFromAnyDraw : ∃ (s t : State) (ks : List ReadKind), ks = [.u32, .f32] ∧
    (AfterDraws Config.build start 0 s ∧ s.inputs = readInputs ks) ∧
    (AfterDraws Config.build start 1 t ∧ t.inputs = readInputs ks) :=
  ⟨_, _, _, rfl, ⟨afterDraws_zero _, rfl⟩, afterDraws_one _, rfl⟩

/-- It also meets the hypotheses of StreamOfTheDefaultBuild, which are the same. -/
theorem wit_StreamFromInit : ∃ (s : State) (ks : List ReadKind),
    s.ctl = .idle ∧ s.inputs = .cmd (encode (.init 3)) :: readInputs ks :=
  ⟨{ State.reset with inputs := .cmd (encode (.init 3)) :: readInputs [.u32] }, [.u32], rfl, rfl⟩

/-- Two blocks that differ and receive the same commands. -/
theorem wit_InitErasesHistory : ∃ (s t : State) (cs : List Instr), s.x ≠ t.x ∧ s.ctl = .idle ∧ t.ctl = .idle ∧
    s.inputs = commandInputs (.init 3 :: cs) ∧ t.inputs = commandInputs (.init 3 :: cs) :=
  ⟨{ State.reset with inputs := commandInputs [.init 3, .rdu32, .init 4, .rdf32] },
    seededBlock start 1 [(0, 5)] (commandInputs [.init 3, .rdu32, .init 4, .rdf32]), [.rdu32, .init 4, .rdf32],
    by decide, rfl, rfl, rfl, rfl⟩

/-- A default-sized build and the smallest one. -/
theorem wit_StreamIgnoresCapacity : ∃ (p : Params) (c : Nat) (s t : State) (cs : List Instr), p.cap ≠ c ∧
    p.wellFormed = true ∧ { p with cap := c }.wellFormed = true ∧ s.ctl = .idle ∧ t.ctl = .idle ∧
    s.inputs = commandInputs (.init 3 :: cs) ∧ t.inputs = commandInputs (.init 3 :: cs) :=
  ⟨testBuild 256 0, 1, { State.reset with inputs := commandInputs [.init 3, .rdu32] },
    { State.reset with inputs := commandInputs [.init 3, .rdu32] }, [.rdu32],
    by decide, by decide, by decide, rfl, rfl, rfl, rfl⟩

theorem wit_LazyFillIsInvisible : ∃ (e : Engine) (s : State),
    s.seeded = true ∧ s.ctl = .idle ∧ s.idx = 0 ∧ s.x = iterT Config.build.cap e ∧
    (∀ j < Config.build.cap, s.buf.read j = some (streamWord Config.build e j)) ∧ s.inputs = readInputs [.f32] :=
  ⟨start, seededBlock (iterT Config.build.cap start) 0 fullBuffer (readInputs [.f32]), rfl, rfl, rfl, rfl,
    fun _ hj => fullBuffer_read hj, rfl⟩

theorem wit_RefillRunsExactlyWhenDue : ∃ (s : State) (k : ReadKind) (rest : List HostInput),
    AfterDraws Config.build start 0 s ∧ s.inputs = .cmd (encode (readInstr k)) :: rest :=
  ⟨_, .u32, [], afterDraws_zero [.cmd (encode (readInstr .u32))], rfl⟩

/-- A word as near to `0x01000003 × 2^−32` as the rounded one (F9), and a word at and below a value that RTZ keeps. -/
theorem wit_F32BitsRoundsCorrectly :
    (f32InRange 0x3B800001 ∧ (0x3B800001 : Word32) ≠ f32bits .rne 0x01000003 ∧
      ((f32Units 0x3B800001 : Int) - 0x01000003 * 2 ^ 23).natAbs =
        ((f32Units (f32bits .rne 0x01000003) : Int) - 0x01000003 * 2 ^ 23).natAbs) ∧
    (f32InRange 0x3B800001 ∧ f32Units 0x3B800001 ≤ 0x01000003 * 2 ^ 23) := by
  have h : f32InRange 0x3B800001 := .inr (by decide)
  exact ⟨⟨h, by decide, by decide⟩, h, by decide⟩

theorem wit_F32BitsRange : (0x00000001 : Word32) ≠ 0 ∧ (1 : Word32).toNat ≤ (0xFFFFFFFF : Word32).toNat ∧
    (0x00FFFFFF : Word32).toNat < 2 ^ 24 ∧ 0xFFFFFF80 ≤ (0xFFFFFF80 : Word32).toNat := by decide

theorem wit_EveryStepKeepsTheInvariant : ∃ s t : State,
    Inv Config.build s ∧ s.buf.wf ∧ step s = .next t :=
  ⟨_, _, fullBuffer_inv 0 [.cmd 0] (Nat.zero_le _), (fullBuffer_inv 0 [.cmd 0] (Nat.zero_le _)).canonical, rfl⟩

theorem wit_CursorFitsItsWidth : ∃ s : State,
    Config.build.wellFormed = true ∧ Inv Config.build s ∧ s.seeded = true ∧ s.idx = Config.build.cap :=
  ⟨_, Config.build_wellFormed, fullBuffer_inv Config.build.cap [] (Nat.le_refl _), rfl, rfl⟩

theorem wit_NoUnwrittenSlotIsRead : ∃ s : State, Inv Config.build s ∧ s.seeded = true ∧ s.idx = 0 :=
  ⟨_, fullBuffer_inv 0 [.cmd (encode .rdu32)] (Nat.zero_le _), rfl, rfl⟩

/-- A state that meets the invariant and faults, and one that is refused. -/
theorem wit_NothingElseStopsTheMachine :
    (∃ s f, Inv Config.build s ∧ step s = .fault f) ∧ (∃ s r, Inv Config.build s ∧ step s = .refused r) :=
  ⟨⟨{ State.reset with inputs := [.cmd 0x100000000] }, _,
      ⟨List.Pairwise.nil, by simp, by simp, by simp, by simp⟩, rfl⟩,
    ⟨_, _, fullBuffer_inv 0 [.cmd 0x300000000] (Nat.zero_le _), rfl⟩⟩

theorem wit_SeededChangesOnlyByInitAndReset :
    (∃ s t : State, step s = .next t ∧ s.seeded = true ∧ t.seeded = false) ∧
    (∃ s t : State, step s = .next t ∧ s.seeded = false ∧ t.seeded = true) :=
  ⟨⟨seededBlock start 0 [] [.reset], _, rfl, rfl, rfl⟩,
    ⟨{ State.reset with inputs := [.cmd 0] }, _, rfl, rfl, rfl⟩⟩

/-- A reset and a slot step that change the engine words. -/
theorem wit_EngineWrittenOnlyByInitAndRefill :
    (∃ s t : State, step s = .next t ∧ t.x ≠ s.x ∧ s.inputs = [.reset]) ∧
    (∃ s t : State, step s = .next t ∧ t.x ≠ s.x ∧ s.inputs = []) :=
  ⟨⟨seededBlock start 0 [] [.reset], _, rfl, by decide, rfl⟩,
    ⟨refilling start 0 .u32 [] [], _, rfl, by decide, rfl⟩⟩

theorem wit_SlotWrittenOnlyByItsRefillStep : ∃ s t : State,
    step s = .next t ∧ t.buf.read 0 ≠ s.buf.read 0 ∧ s.inputs = [] :=
  ⟨refilling start 0 .u32 [] [], _, rfl, by simp [refilling, seededBlock, refillStep], rfl⟩

theorem wit_OnlyReadsRespond : ∃ s t : State, step s = .next t ∧ t.responses ≠ s.responses :=
  ⟨refilling start Config.build.cap .u32 [(0, 5)] [],
    (refilling start Config.build.cap .u32 [(0, 5)] [] |>.setIdx 1 |>.respond 5 |>.setCtl .idle),
    by simp [step, stepBy, refilling, controllerStep, refillDone, readSlot, Memory.read, answer, seededBlock,
      State.setIdx, State.respond, State.setCtl],
    by simp [refilling, seededBlock]⟩

end Sys2Proof.Tests
end

/-! PROOFS. Bits of a rotation, the width of the cursor and the defaults of a build (00_scope.md R7, R9). -/

namespace Sys2Proof.Machine

/-- A bit that a rotation moves within the word comes from the left shift. -/
theorem getLsbD_rotl64_of_add_lt (a : Word64) {n i : Nat} (h : i + n < 64) :
    (rotl64 a n).getLsbD (i + n) = a.getLsbD i := by
  have hi : i < 64 := by omega
  have hout : a.getLsbD (64 - n + (i + n)) = false := a.getLsbD_of_ge _ (by omega)
  simp [rotl64, h, hout, BitVec.getLsbD_eq_getElem hi]

/-- A bit that a rotation moves past the word's end comes round through the right shift. -/
theorem getLsbD_rotl64_of_le_add (a : Word64) {n i : Nat} (hn : n ≤ 64) (hi : i < 64) (h : 64 ≤ i + n) :
    (rotl64 a n).getLsbD (i + n - 64) = a.getLsbD i := by
  have hlow : i + n - 64 < n := by omega
  have hback : 64 - n + (i + n - 64) = i := by omega
  simp [rotl64, hlow, hback]

/-- Settles O48: the bit stays below 64 or comes round, and each half of the rotation keeps one of these. -/
theorem rotationMovesEachBit : Obligations.RotationMovesEachBit := by
  intro a n i _ hn hi
  by_cases h : i + n < 64
  · rw [Nat.mod_eq_of_lt h, getLsbD_rotl64_of_add_lt a h]
  · have hmod : (i + n) % 64 = i + n - 64 := by omega
    rw [hmod, getLsbD_rotl64_of_le_add a (by omega) hi (by omega)]

/-- Settles O38: the cursor is at most CAP, and `IDX_W` is CAP's own number of bits. -/
theorem cursorFitsItsWidth : Obligations.CursorFitsItsWidth := by
  intro p s hp hinv hs
  obtain ⟨hcap, _⟩ := p.wellFormed_iff.1 hp
  obtain ⟨hupper, hlower⟩ := p.idxWidth_spec hcap
  exact ⟨Nat.lt_of_le_of_lt (hinv.cursorInRange hs) hupper, Nat.lt_succ_of_le hlower, hupper⟩

/-- Settles O49: the defaults are read off the record, and 256 = 2^8 needs nine bits. -/
theorem buildParameterDefaults : Obligations.BuildParameterDefaults := by
  rintro base expand p rfl
  have hwidth : Nat.log2 256 + 1 = 9 := congrArg (· + 1) (Nat.log2_two_pow (n := 8))
  exact ⟨rfl, hwidth, rfl, rfl, rfl⟩

end Sys2Proof.Machine

/-! PROOFS. Runs of a build: how they compose, and that a run that has ended stays where it is. -/

namespace Sys2Proof

/-- The decoder reads back the command that the encoder wrote (30_encoding.md R75). -/
@[simp] theorem decode_encode (i : Instr) : decode (encode i) = .instr i := by
  cases i <;> simp [decode, encode]

end Sys2Proof

namespace Sys2Proof.Machine

theorem runWith_succ_of_next {p : Params} {s t : State} (h : stepWith p s = .next t) (n : Nat) :
    runWith p (n + 1) s = runWith p n t := by
  simp [runWith, h]

/-- A run goes on from where its first `m` steps ended. -/
theorem runWith_add_of_next {p : Params} {m : Nat} {s t : State} (h : runWith p m s = .next t) (n : Nat) :
    runWith p (m + n) s = runWith p n t := by
  induction m generalizing s with
  | zero => cases h; rw [Nat.zero_add]
  | succ m ih =>
    rw [Nat.succ_add]
    cases hs : stepWith p s with
    | next u =>
      rw [runWith_succ_of_next hs] at h ⊢
      exact ih h
    | fault f => simp [runWith, hs] at h
    | refused r => simp [runWith, hs] at h

theorem stepWith_of_runEnded {p : Params} {s : State} (h : RunEnded s) : stepWith p s = .next s := by
  obtain ⟨hin, hc⟩ := h
  rw [stepWith, stepBy_quiet p _ hin]
  simp [controllerStep, hc]

theorem runWith_of_runEnded {p : Params} {s : State} (h : RunEnded s) (n : Nat) : runWith p n s = .next s := by
  induction n with
  | zero => rfl
  | succ n ih => rw [runWith_succ_of_next (stepWith_of_runEnded h), ih]

/-- More steps than a run needs to end leave its last state. -/
theorem runWith_of_runEnded_of_le {p : Params} {m n : Nat} {s t : State} (h : runWith p m s = .next t)
    (ht : RunEnded t) (hle : m ≤ n) : runWith p n s = .next t := by
  obtain ⟨d, rfl⟩ := Nat.exists_eq_add_of_le hle
  rw [runWith_add_of_next h, runWith_of_runEnded ht]

/-- An idle block runs the command whose word stands on its port (20_memory.md R58). -/
theorem stepWith_encode {p : Params} {s : State} {i : Instr} {rest : List HostInput} (hc : s.ctl = .idle)
    (hin : s.inputs = .cmd (encode i) :: rest) : stepWith p s = execWith p i (s.setInputs rest) := by
  rw [stepWith, stepBy_accept p _ hin hc]
  simp [acceptWith]

theorem execWith_readInstr (p : Params) (k : ReadKind) (s : State) :
    execWith p (readInstr k) s = readWith p k s := by
  cases k <;> rfl

/-! ### The refill as a run (40_buffered_source.md R121, R122, R124) -/

/-- A busy block whose host neither resets nor pauses moves its controller. -/
theorem stepWith_of_refill {p : Params} {s : State} {i : Nat} {k : ReadKind} (hc : s.ctl = .refill i k)
    (hs : HostSteady s) : stepWith p s = controllerStep p s := by
  obtain hin | ⟨w, rest, hin⟩ := hs
  · exact stepBy_quiet p _ hin
  · exact stepBy_busy p _ hin hc

/-- The state `n` slot steps into a refill that started in `s`. -/
def refillAt (p : Params) (k : ReadKind) (n : Nat) (s : State) : State :=
  { s with buf := fillSlots p s.x n s.buf, x := iterT n s.x, ctl := .refill n k }

theorem refillStep_refillAt (p : Params) (k : ReadKind) (n : Nat) (s : State) :
    refillStep p n k (refillAt p k n s) = refillAt p k (n + 1) s := by
  simp [refillAt, refillStep, State.writeSlot, State.setX, State.setCtl, fillSlots, streamWord, iterT_succ_out]

/-- The first `n` steps of a refill write the slots 0..n−1. -/
theorem runWith_slotSteps {p : Params} {s : State} {k : ReadKind} (hc : s.ctl = .refill 0 k) (hs : HostSteady s)
    {n : Nat} (hn : n ≤ p.cap) : runWith p n s = .next (refillAt p k n s) := by
  induction n with
  | zero => simp [runWith, refillAt, fillSlots, ← hc]
  | succ n ih =>
    have hstep : stepWith p (refillAt p k n s) = .next (refillAt p k (n + 1) s) := by
      have hctl : (refillAt p k n s).ctl = .refill n k := rfl
      rw [stepWith_of_refill hctl hs, controllerStep, hctl, ← refillStep_refillAt]
      simp [Nat.lt_of_succ_le hn]
    rw [runWith_add_of_next (ih (Nat.le_of_succ_le hn)), runWith_succ_of_next hstep, runWith]

/-- The CAP + 1 steps of a refill are the atomic one. -/
theorem runWith_refill {p : Params} {s : State} {k : ReadKind} (hc : s.ctl = .refill 0 k) (hs : HostSteady s) :
    runWith p (p.cap + 1) s = atomicRefill p k s := by
  have hdone : stepWith p (refillAt p k p.cap s) = atomicRefill p k s := by
    have hctl : (refillAt p k p.cap s).ctl = .refill p.cap k := rfl
    rw [stepWith_of_refill hctl hs, controllerStep, hctl]
    simp [refillDone, atomicRefill, readSlot, refillAt, State.setIdx, State.respond, State.setCtl]
  rw [runWith_add_of_next (runWith_slotSteps hc hs (Nat.le_refl _))]
  simp only [runWith, hdone]
  cases atomicRefill p k s <;> rfl

/-- What a refill leaves: a full buffer, slot 0 answered and consumed. -/
theorem atomicRefill_eq {p : Params} (hp : 0 < p.cap) (k : ReadKind) (s : State) :
    atomicRefill p k s = .next { s with
      buf := fillSlots p s.x p.cap s.buf, x := iterT p.cap s.x, idx := 1, ctl := .idle
      responses := s.responses ++ [answer p k (streamWord p s.x 0)] } := by
  have hread : (fillSlots p s.x p.cap s.buf).read 0 = some (streamWord p s.x 0) := by
    rw [fillSlots_read, if_pos hp]
  rw [atomicRefill, refillDone, readSlot_some hread]
  rfl

/-! ### Counting draws and fills (40_buffered_source.md R126, R128) -/

/-- `f` fills are those of `n` draws exactly when they hold `n` words and one fewer does not. -/
theorem fillCount_eq_iff {p : Params} (hp : 0 < p.cap) {n f : Nat} :
    fillCount p n = f ↔ n ≤ f * p.cap ∧ f * p.cap < n + p.cap := by
  rw [fillCount, Nat.div_eq_iff hp]
  omega

@[simp] theorem fillCount_no_draws {p : Params} (hp : 0 < p.cap) : fillCount p 0 = 0 :=
  (fillCount_eq_iff hp).2 (by omega)

/-- After `n` draws either the current fill has the slot of draw `n` left, or every fill is used up and draw `n` starts the
next one. -/
theorem AfterDraws.cursor_cases {p : Params} (hp : 0 < p.cap) {e : Engine} {n : Nat} {s : State}
    (h : AfterDraws p e n s) :
    (0 < n ∧ s.idx < p.cap ∧ (fillCount p n - 1) * p.cap + s.idx = n ∧ fillCount p (n + 1) = fillCount p n) ∨
    (s.idx = p.cap ∧ fillCount p n * p.cap = n ∧ fillCount p (n + 1) = fillCount p n + 1) := by
  obtain ⟨hle, hlt⟩ := (fillCount_eq_iff hp).1 (Eq.refl (fillCount p n))
  rw [fillCount_eq_iff hp, fillCount_eq_iff hp, Nat.succ_mul]
  rcases Nat.eq_zero_or_pos n with rfl | hn
  · rw [fillCount_no_draws hp]
    exact .inr ⟨h.cursorStart rfl, by omega⟩
  · have hidx := h.cursor hn
    cases hf : fillCount p n with
    | zero => rw [hf] at hle; omega
    | succ g =>
      simp only [hf, Nat.add_sub_cancel, Nat.succ_mul] at hidx hle hlt ⊢
      omega

/-! ### The stream (40_buffered_source.md R125, R126) -/

/-- A read with a slot left takes the next word of the current fill in one step. -/
theorem AfterDraws.read_slot {p : Params} {e : Engine} {n : Nat} {s : State} (h : AfterDraws p e n s) (hn : 0 < n)
    (hi : s.idx < p.cap) (hidx : (fillCount p n - 1) * p.cap + s.idx = n)
    (hfill : fillCount p (n + 1) = fillCount p n) (k : ReadKind) {rest : List HostInput}
    (hin : s.inputs = .cmd (encode (readInstr k)) :: rest) :
    ∃ t, stepWith p s = .next t ∧ AfterDraws p e (n + 1) t ∧ t.inputs = rest ∧
      t.responses = s.responses ++ [answer p k (streamWord p e n)] := by
  have hread : s.buf.read s.idx = some (streamWord p e n) := by rw [h.slots hn _ hi, hidx]
  refine ⟨((s.setInputs rest).setIdx (s.idx + 1)).respond (answer p k (streamWord p e n)), ?_, ?_, rfl, rfl⟩
  · rw [stepWith_encode h.idle hin, execWith_readInstr]
    simp [readWith, readSlot, h.seeded, hi, hread]
  · exact {
      seeded := h.seeded
      idle := h.idle
      engine := by rw [hfill]; exact h.engine
      cursorStart := fun h0 => absurd h0 (Nat.succ_ne_zero n)
      cursor := fun _ => by rw [hfill]; simp only [State.respond_idx, State.setIdx_idx]; omega
      slots := fun _ => by rw [hfill]; exact h.slots hn }

/-- A read with no slot left refills the buffer from the stream's next word on, and answers that word, in `CAP + 2` steps. -/
theorem AfterDraws.read_refill {p : Params} (hp : 0 < p.cap) {e : Engine} {n : Nat} {s : State}
    (h : AfterDraws p e n s) (hi : s.idx = p.cap) (hidx : fillCount p n * p.cap = n)
    (hfill : fillCount p (n + 1) = fillCount p n + 1) (k : ReadKind) {rest : List HostInput}
    (hin : s.inputs = .cmd (encode (readInstr k)) :: rest) (hrest : HostSteady (s.setInputs rest)) :
    ∃ t, runWith p (p.cap + 2) s = .next t ∧ AfterDraws p e (n + 1) t ∧ t.inputs = rest ∧
      t.responses = s.responses ++ [answer p k (streamWord p e n)] := by
  have hengine : s.x = iterT n e := by rw [h.engine, hidx]
  have hword : ∀ j, streamWord p s.x j = streamWord p e (n + j) := by simp [hengine, streamWord_add]
  have hstart : stepWith p s = .next ((s.setInputs rest).setCtl (.refill 0 k)) := by
    rw [stepWith_encode h.idle hin, execWith_readInstr]
    simp [readWith, h.seeded, hi]
  have hrun := runWith_refill (p := p) (s := (s.setInputs rest).setCtl (.refill 0 k)) rfl hrest
  rw [atomicRefill_eq hp] at hrun
  refine ⟨_, (runWith_succ_of_next hstart _).trans hrun, ?_, rfl, ?_⟩
  · exact {
      seeded := h.seeded
      idle := rfl
      engine := by
        rw [hfill, Nat.succ_mul, hidx, iterT_add, ← hengine]
        rfl
      cursorStart := fun h0 => absurd h0 (Nat.succ_ne_zero n)
      cursor := fun _ => by
        rw [hfill, Nat.add_sub_cancel, hidx, Nat.add_sub_cancel_left]
      slots := fun _ j hj => by
        rw [hfill, Nat.add_sub_cancel, hidx, ← hword]
        simp [fillSlots_read, hj] }
  · simp [hword]

/-- One read of the stream: it answers draw `n` within `CAP + 2` steps and leaves the state of `n + 1` draws. -/
theorem AfterDraws.read {p : Params} (hp : 0 < p.cap) {e : Engine} {n : Nat} {s : State} (h : AfterDraws p e n s)
    (k : ReadKind) {rest : List HostInput} (hin : s.inputs = .cmd (encode (readInstr k)) :: rest)
    (hrest : HostSteady (s.setInputs rest)) :
    ∃ m t, m ≤ p.cap + 2 ∧ runWith p m s = .next t ∧ AfterDraws p e (n + 1) t ∧ t.inputs = rest ∧
      t.responses = s.responses ++ [answer p k (streamWord p e n)] := by
  obtain ⟨hn, hi, hidx, hfill⟩ | ⟨hi, hidx, hfill⟩ := h.cursor_cases hp
  · obtain ⟨t, hstep, ht⟩ := h.read_slot hn hi hidx hfill k hin
    exact ⟨1, t, by omega, runWith_succ_of_next hstep 0, ht⟩
  · obtain ⟨t, hrun, ht⟩ := h.read_refill hp hi hidx hfill k hin hrest
    exact ⟨p.cap + 2, t, Nat.le_refl _, hrun, ht⟩

/-- A host with only reads to present never resets or pauses. -/
theorem hostSteady_of_readInputs {s : State} {ks : List ReadKind} (h : s.inputs = readInputs ks) : HostSteady s := by
  cases ks with
  | nil => exact .inl h
  | cons k ks => exact .inr ⟨_, _, h⟩

/-- A list of reads after `n` draws answers the stream's next words, with a bound on the steps it takes. -/
theorem AfterDraws.reads {p : Params} (hp : 0 < p.cap) {e : Engine} {n : Nat} {ks : List ReadKind} {s : State}
    (h : AfterDraws p e n s) (hin : s.inputs = readInputs ks) :
    ∃ m t, m ≤ enoughSteps p ks.length ∧ runWith p m s = .next t ∧ RunEnded t ∧
      AfterDraws p e (n + ks.length) t ∧ t.responses = s.responses ++ drawWords p e n ks := by
  induction ks generalizing n s with
  | nil => exact ⟨0, s, Nat.zero_le _, rfl, ⟨hin, h.idle⟩, h, by simp [drawWords]⟩
  | cons k ks ih =>
    obtain ⟨m₁, u, hm₁, hrun₁, hu, huin, hures⟩ :=
      h.read hp k hin (hostSteady_of_readInputs (State.setInputs_inputs s (readInputs ks)))
    obtain ⟨m₂, t, hm₂, hrun₂, hend, ht, htres⟩ := ih hu huin
    refine ⟨m₁ + m₂, t, ?_, (runWith_add_of_next hrun₁ m₂).trans hrun₂, hend, ?_, ?_⟩
    · rw [enoughSteps] at hm₂ ⊢
      rw [List.length_cons, Nat.succ_mul]
      omega
    · rwa [List.length_cons, Nat.add_comm ks.length, ← Nat.add_assoc]
    · rw [htres, hures, List.append_assoc]
      rfl

/-- INIT leaves the state of no draws. -/
theorem afterDraws_zero_of_init {p : Params} (hp : 0 < p.cap) (a : Word32) {s : State} (hc : s.ctl = .idle) :
    AfterDraws p (p.seedExpand (seedOf p a)) 0
      (((s.setX (p.seedExpand (seedOf p a))).setIdx p.cap).setSeeded) where
  seeded := rfl
  idle := hc
  engine := by simp [hp]
  cursorStart _ := rfl
  cursor h0 := absurd h0 (Nat.lt_irrefl 0)
  slots h0 := absurd h0 (Nat.lt_irrefl 0)

/-- INIT and then any reads on an idle block of any build: the stream from its first word on, whatever the block held. -/
theorem runWith_init_reads {p : Params} (hp : 0 < p.cap) (a : Word32) (ks : List ReadKind) {s : State}
    (hc : s.ctl = .idle) (hin : s.inputs = .cmd (encode (.init a)) :: readInputs ks) :
    ∃ t, runWith p (1 + enoughSteps p ks.length) s = .next t ∧ RunEnded t ∧
      AfterDraws p (p.seedExpand (seedOf p a)) ks.length t ∧
      t.responses = s.responses ++ drawWords p (p.seedExpand (seedOf p a)) 0 ks := by
  have hinit : stepWith p s =
      .next ((((s.setInputs (readInputs ks)).setX (p.seedExpand (seedOf p a))).setIdx p.cap).setSeeded) :=
    stepWith_encode hc hin
  obtain ⟨m, t, hm, hrun, hend, ht, hres⟩ :=
    (afterDraws_zero_of_init hp a (s := s.setInputs (readInputs ks)) hc).reads hp rfl
  refine ⟨t, ?_, hend, by rwa [Nat.zero_add] at ht, hres⟩
  rw [Nat.add_comm, runWith_succ_of_next hinit]
  exact runWith_of_runEnded_of_le hrun hend hm

/-- The response words by their place in the list. -/
theorem drawWords_eq_mapIdx (p : Params) (e : Engine) (n : Nat) (ks : List ReadKind) :
    drawWords p e n ks = ks.mapIdx fun i k => answer p k (streamWord p e (n + i)) := by
  induction ks generalizing n with
  | nil => rfl
  | cons k ks ih => simp [drawWords, ih, Nat.add_assoc, Nat.add_comm 1]

/-- Settles O50: the stream of any build from INIT on, with the default build's CAP, `OUT_SEL` and `F32_MODE` put in. -/
theorem streamOfTheDefaultBuild : Obligations.StreamOfTheDefaultBuild := by
  intro a ks s hc hin
  obtain ⟨t, hrun, hend, _, hres⟩ := runWith_init_reads (p := Config.defaultBuild) (by decide) a ks hc hin
  refine ⟨t, hrun, hend, ?_⟩
  rw [hres, drawWords_eq_mapIdx]
  congr 2
  funext n k
  rw [Nat.zero_add]
  cases k <;> rfl

end Sys2Proof.Machine

/-! PROOFS. What a step can do, case by case; from it the invariant and who writes what (10_state.md R21 to R27, R51). -/

namespace Sys2Proof

/-- Only the encoder's own words decode to a command (30_encoding.md R75). -/
theorem eq_encode_of_decode {c : Command} {i : Instr} (h : decode c = .instr i) : c = encode i := by
  obtain hop | hop | hop | hop := opField_values c
  · have hi : .init (argField c) = i := by simpa [decode, hop] using h
    rw [← hi, encode, ← hop, commandWord_fields]
  · obtain ⟨ha, hi⟩ : argField c = 0#32 ∧ .rdu32 = i := by simpa [decode, hop, ite_eq_iff] using h
    rw [← commandWord_fields c, hop, ha, ← hi]
    rfl
  · obtain ⟨ha, hi⟩ : argField c = 0#32 ∧ .rdf32 = i := by simpa [decode, hop, ite_eq_iff] using h
    rw [← commandWord_fields c, hop, ha, ← hi]
    rfl
  · simp [decode, hop] at h

end Sys2Proof

namespace Sys2Proof.Machine

/-- The moves of a block built with `p`: every way in which one step takes the state `s` to a next state. -/
inductive Move (p : Params) (s : State) : State → Prop where
  /-- A reset acts, whatever the block was doing (70_reset_and_hazards.md R220). -/
  | reset {rest : List HostInput} (hin : s.inputs = .reset :: rest) : Move p s (s.assertReset rest)
  /-- An idle block waits (60_exceptions.md R214). -/
  | wait {l : List HostInput} (hl : l = s.inputs ∨ s.inputs = .wait :: l) (hc : s.ctl = .idle) :
      Move p s (s.setInputs l)
  /-- A refill writes its next slot (40_buffered_source.md R121). -/
  | slot {l : List HostInput} {i : Nat} {k : ReadKind} (hl : l = s.inputs ∨ s.inputs = .wait :: l)
      (hc : s.ctl = .refill i k) (hi : i < p.cap) : Move p s (refillStep p i k (s.setInputs l))
  /-- A refill ends and answers the pending read (40_buffered_source.md R122). -/
  | done {l : List HostInput} {i : Nat} {k : ReadKind} {v : Word32} (hl : l = s.inputs ∨ s.inputs = .wait :: l)
      (hc : s.ctl = .refill i k) (hi : p.cap ≤ i) (hv : s.buf.read 0 = some v) :
      Move p s ((((s.setInputs l).setIdx 1).respond (answer p k v)).setCtl .idle)
  /-- INIT (40_buffered_source.md R100). -/
  | init {a : Word32} {rest : List HostInput} (hc : s.ctl = .idle)
      (hin : s.inputs = .cmd (encode (.init a)) :: rest) :
      Move p s ((((s.setInputs rest).setX (p.seedExpand (seedOf p a))).setIdx p.cap).setSeeded)
  /-- A read takes the slot at the cursor (40_buffered_source.md R110, R111). -/
  | take {k : ReadKind} {v : Word32} {rest : List HostInput} (hc : s.ctl = .idle)
      (hin : s.inputs = .cmd (encode (readInstr k)) :: rest) (hs : s.seeded = true) (hi : s.idx < p.cap)
      (hv : s.buf.read s.idx = some v) :
      Move p s (((s.setInputs rest).setIdx (s.idx + 1)).respond (answer p k v))
  /-- A read with no slot left starts a refill (40_buffered_source.md R110, R111, R120). -/
  | refill {k : ReadKind} {rest : List HostInput} (hc : s.ctl = .idle)
      (hin : s.inputs = .cmd (encode (readInstr k)) :: rest) (hs : s.seeded = true) (hi : p.cap ≤ s.idx) :
      Move p s ((s.setInputs rest).setCtl (.refill 0 k))

/-- A step that answers a state is a move. -/
theorem move_of_stepWith {p : Params} {s t : State} (h : stepWith p s = .next t) : Move p s t := by
  obtain ⟨rest, hin, rfl⟩ | ⟨l, hl, hctl⟩ | ⟨w, rest, i, hin, hc, hd, hexec⟩ := stepWith_next h
  · exact .reset hin
  · obtain ⟨hc, rfl⟩ | ⟨i, k, hc, hi, rfl⟩ | ⟨i, k, v, hc, hi, hv, rfl⟩ := controllerStep_next hctl
    · exact .wait hl hc
    · exact .slot hl hc hi
    · exact .done hl hc hi hv
  · rw [eq_encode_of_decode hd] at hin
    obtain ⟨a, rfl, rfl⟩ | ⟨k, rfl, hread⟩ := execWith_next hexec
    · exact .init hc hin
    · obtain ⟨hs, ⟨v, hi, hv, rfl⟩ | ⟨hi, rfl⟩⟩ := readWith_next hread
      · exact .take hc hin hs hi hv
      · exact .refill hc hin hs hi

/-- A step of the built machine that answers a state is a move of its build. -/
theorem move_of_step {s t : State} (h : step s = .next t) : Move Config.build s t :=
  move_of_stepWith ((step_eq_stepWith s).symm.trans h)

/-! ### The invariant (10_state.md R24, R25, R27, 20_memory.md R51, 40_buffered_source.md R114) -/

/-- The state after reset meets the invariant, whatever the ports hold. -/
theorem inv_assertReset (p : Params) (s : State) (rest : List HostInput) : Inv p (s.assertReset rest) where
  canonical := Memory.wf_reset
  slotsInRange _ he := absurd he List.not_mem_nil
  cursorInRange hs := by cases hs
  fullWhenReadable hs := by cases hs
  duringRefill _ _ hc := by cases hc

/-- The invariant says nothing of the command port. -/
theorem Inv.setInputs {p : Params} {s : State} (h : Inv p s) (l : List HostInput) : Inv p (s.setInputs l) where
  canonical := h.canonical
  slotsInRange := h.slotsInRange
  cursorInRange := h.cursorInRange
  fullWhenReadable := h.fullWhenReadable
  duringRefill := h.duringRefill

theorem Inv.refillStep {p : Params} {s : State} (h : Inv p s) {i : Nat} {k : ReadKind} (hc : s.ctl = .refill i k)
    (hi : i < p.cap) : Inv p (refillStep p i k s) where
  canonical := Memory.wf_write h.canonical i _
  slotsInRange e he := by
    obtain rfl | he := Memory.mem_write he
    · exact hi
    · exact h.slotsInRange e he
  cursorInRange := h.cursorInRange
  fullWhenReadable _ hidle := by cases hidle
  duringRefill _ _ hc' := by
    cases hc'
    obtain ⟨hs, hidx, _, hvalid⟩ := h.duringRefill i k hc
    refine ⟨hs, hidx, hi, fun j hj => (s.valid_writeSlot j i _).trans ?_⟩
    obtain hj | rfl := Nat.lt_succ_iff_lt_or_eq.1 hj
    · simp [hvalid j hj]
    · simp

/-- The end of a refill keeps the invariant: its counter is CAP, so every slot is written. -/
theorem Inv.refillDone {p : Params} {s : State} (hp : 0 < p.cap) (h : Inv p s) {i : Nat} {k : ReadKind}
    (hc : s.ctl = .refill i k) (hi : p.cap ≤ i) (w : Word32) :
    Inv p (((s.setIdx 1).respond w).setCtl .idle) where
  canonical := h.canonical
  slotsInRange := h.slotsInRange
  cursorInRange _ := hp
  fullWhenReadable _ _ _ j hj := by
    obtain ⟨_, _, _, hvalid⟩ := h.duringRefill i k hc
    exact hvalid j (Nat.lt_of_lt_of_le hj hi)
  duringRefill _ _ hc' := by cases hc'

theorem Inv.init {p : Params} {s : State} (h : Inv p s) (hc : s.ctl = .idle) (e : Engine) :
    Inv p (((s.setX e).setIdx p.cap).setSeeded) where
  canonical := h.canonical
  slotsInRange := h.slotsInRange
  cursorInRange _ := Nat.le_refl _
  fullWhenReadable _ _ hi := absurd hi (Nat.lt_irrefl _)
  duringRefill _ _ hc' := by cases hc.symm.trans hc'

theorem Inv.take {p : Params} {s : State} (h : Inv p s) (hc : s.ctl = .idle) (hs : s.seeded = true)
    (hi : s.idx < p.cap) (w : Word32) : Inv p ((s.setIdx (s.idx + 1)).respond w) where
  canonical := h.canonical
  slotsInRange := h.slotsInRange
  cursorInRange _ := hi
  fullWhenReadable _ _ _ := h.fullWhenReadable hs hc hi
  duringRefill _ _ hc' := by cases hc.symm.trans hc'

theorem Inv.startRefill {p : Params} {s : State} (h : Inv p s) (hs : s.seeded = true) (hi : p.cap ≤ s.idx)
    (k : ReadKind) : Inv p (s.setCtl (.refill 0 k)) where
  canonical := h.canonical
  slotsInRange := h.slotsInRange
  cursorInRange := h.cursorInRange
  fullWhenReadable _ hidle := by cases hidle
  duringRefill _ _ hc' := by
    cases hc'
    exact ⟨hs, Nat.le_antisymm (h.cursorInRange hs) hi, Nat.zero_le _, fun j hj => absurd hj (Nat.not_lt_zero j)⟩

/-- Every move of a build with a slot at all keeps the invariant. -/
theorem Move.inv {p : Params} {s t : State} (hp : 0 < p.cap) (hm : Move p s t) (h : Inv p s) : Inv p t := by
  cases hm with
  | reset => exact inv_assertReset p s _
  | wait => exact h.setInputs _
  | slot _ hc hi => exact (h.refillStep hc hi).setInputs _
  | done _ hc hi => exact (h.refillDone hp hc hi _).setInputs _
  | init hc => exact (h.init hc _).setInputs _
  | take hc _ hs hi => exact (h.take hc hs hi _).setInputs _
  | refill _ _ hs hi => exact (h.startRefill hs hi _).setInputs _

/-- Settles O36: each move keeps the invariant. -/
theorem everyStepKeepsTheInvariant : Obligations.EveryStepKeepsTheInvariant :=
  fun _ _ hinv hstep => (move_of_step hstep).inv Config.build_cap_pos hinv

/-! ### Who writes the buffer, the engine words and `seeded` (10_state.md R21, R22, R26) -/

/-- A move leaves the buffer, or is a reset, or writes the one slot that the refill is at. -/
theorem Move.buf_cases {p : Params} {s t : State} (hm : Move p s t) :
    t.buf = s.buf ∨ (t.buf = [] ∧ ∃ rest, s.inputs = .reset :: rest) ∨
    ∃ i k, s.ctl = .refill i k ∧ i < p.cap ∧ t.buf = s.buf.write i (sel32 p (out64 s.x)) := by
  cases hm with
  | reset hin => exact .inr (.inl ⟨rfl, _, hin⟩)
  | slot _ hc hi => exact .inr (.inr ⟨_, _, hc, hi, rfl⟩)
  | wait | done | init | take | refill => exact .inl rfl

/-- Settles O37: the buffer after a step is the one before, an empty one, or the one before with one slot written. -/
theorem everyStepKeepsTheBufferCanonical : Obligations.EveryStepKeepsTheBufferCanonical := by
  intro s t hwf hstep
  obtain hbuf | ⟨hbuf, _⟩ | ⟨i, k, _, _, hbuf⟩ := (move_of_step hstep).buf_cases <;> rw [hbuf]
  · exact hwf
  · exact Memory.wf_reset
  · exact Memory.wf_write hwf i _

/-- Settles O43: a refill slot step at `i` writes the slot named, and reads of the other slots do not see it. -/
theorem slotWrittenOnlyByItsRefillStep : Obligations.SlotWrittenOnlyByItsRefillStep := by
  intro s t j hstep hne
  obtain hbuf | ⟨_, hin⟩ | ⟨i, k, hc, hi, hbuf⟩ := (move_of_step hstep).buf_cases
  · exact absurd (by rw [hbuf]) hne
  · exact .inl hin
  · rw [hbuf] at hne ⊢
    by_cases hj : j = i
    · subst hj
      exact .inr ⟨Memory.read_write_same _ _ _, k, hc, hi⟩
    · exact absurd (Memory.read_write_other _ _ hj) hne

/-- Settles O42: every other move leaves the engine words. -/
theorem engineWrittenOnlyByInitAndRefill : Obligations.EngineWrittenOnlyByInitAndRefill := by
  intro s t hstep hne
  cases move_of_step hstep with
  | reset hin => exact .inl ⟨_, hin⟩
  | init hc hin => exact .inr (.inl ⟨hc, _, _, hin⟩)
  | slot _ hc hi => exact .inr (.inr ⟨rfl, _, _, hc, hi⟩)
  | wait | done | take | refill => exact absurd rfl hne

/-- A move leaves `seeded`, or is a reset, which clears it, or an INIT, which sets it. -/
theorem Move.seeded_cases {p : Params} {s t : State} (hm : Move p s t) :
    t.seeded = s.seeded ∨ (t.seeded = false ∧ ∃ rest, s.inputs = .reset :: rest) ∨
    (t.seeded = true ∧ s.ctl = .idle ∧ ∃ a rest, s.inputs = .cmd (encode (.init a)) :: rest) := by
  cases hm with
  | reset hin => exact .inr (.inl ⟨rfl, _, hin⟩)
  | init hc hin => exact .inr (.inr ⟨rfl, hc, _, _, hin⟩)
  | wait | slot | done | take | refill => exact .inl rfl

/-- Settles O41: a change of `seeded` to 0 is no INIT's, and one to 1 no reset's. -/
theorem seededChangesOnlyByInitAndReset : Obligations.SeededChangesOnlyByInitAndReset := by
  intro s t hstep
  obtain heq | ⟨ht, hin⟩ | ⟨ht, hinit⟩ := (move_of_step hstep).seeded_cases
  · rw [heq]
    exact ⟨fun h1 h0 => by simp [h1] at h0, fun h0 h1 => by simp [h0] at h1⟩
  · exact ⟨fun _ _ => hin, fun _ h1 => by simp [ht] at h1⟩
  · exact ⟨fun _ h0 => by simp [ht] at h0, fun _ _ => hinit⟩

/-! ### Faults (10_state.md R25, 40_buffered_source.md R114, 60_exceptions.md R201) -/

theorem controllerStep_fault {p : Params} {s : State} {f : Fault} (h : controllerStep p s = .fault f) :
    ∃ i k, s.ctl = .refill i k ∧ p.cap ≤ i ∧ s.buf.read 0 = none ∧ f = .unwrittenSlot 0 := by
  obtain ⟨_, he⟩ | ⟨_, _, _, _, he⟩ | ⟨i, k, hc, hi, he⟩ := controllerStep_cases p s <;> rw [he] at h
  · cases h
  · cases h
  · obtain ⟨v, _, hd⟩ | ⟨hnone, hd⟩ := refillDone_cases p k s <;> rw [hd] at h <;> cases h
    exact ⟨i, k, hc, hi, hnone, rfl⟩

theorem readWith_fault {p : Params} {k : ReadKind} {s : State} {f : Fault} (h : readWith p k s = .fault f) :
    (s.seeded = false ∧ f = .unseededRead (encode (readInstr k))) ∨
    (s.seeded = true ∧ s.idx < p.cap ∧ s.buf.read s.idx = none ∧ f = .unwrittenSlot s.idx) := by
  obtain ⟨hs, he⟩ | ⟨_, _, v, _, he⟩ | ⟨hs, hi, hnone, he⟩ | ⟨_, _, he⟩ := readWith_cases p k s <;>
    rw [he] at h <;> cases h
  · exact .inl ⟨hs, rfl⟩
  · exact .inr ⟨hs, hi, hnone, rfl⟩

/-- Of the commands only the reads fault. -/
theorem execWith_fault {p : Params} {i : Instr} {s : State} {f : Fault} (h : execWith p i s = .fault f) :
    ∃ k, i = readInstr k ∧ readWith p k s = .fault f := by
  cases i with
  | init a => cases h
  | rdu32 => exact ⟨.u32, rfl, h⟩
  | rdf32 => exact ⟨.f32, rfl, h⟩

/-- Every fault of a step: a read before INIT, a read at an unwritten slot, or a refill that ends without its slot 0. -/
theorem stepWith_fault {p : Params} {s : State} {f : Fault} (h : stepWith p s = .fault f) :
    (∃ k rest, s.ctl = .idle ∧ s.seeded = false ∧ s.inputs = .cmd (encode (readInstr k)) :: rest ∧
      f = .unseededRead (encode (readInstr k))) ∨
    (s.ctl = .idle ∧ s.seeded = true ∧ s.idx < p.cap ∧ s.buf.read s.idx = none ∧ f = .unwrittenSlot s.idx) ∨
    (∃ i k, s.ctl = .refill i k ∧ p.cap ≤ i ∧ s.buf.read 0 = none ∧ f = .unwrittenSlot 0) := by
  obtain ⟨rest, _, he⟩ | ⟨rest, _, he⟩ | ⟨w, rest, hin, hc, he⟩ | ⟨_, he⟩ := stepBy_cases p (execWith p) s <;>
    rw [stepWith, he] at h
  · cases h
  · exact .inr (.inr (controllerStep_fault (s := s.setInputs rest) h))
  · obtain ⟨i, hd, ha⟩ | ⟨_, ha⟩ | ⟨_, ha⟩ := acceptWith_cases (execWith p) w (s.setInputs rest) <;> rw [ha] at h
    · rw [eq_encode_of_decode hd] at hin
      obtain ⟨k, rfl, hread⟩ := execWith_fault h
      obtain ⟨hs, rfl⟩ | ⟨hs, hi, hnone, rfl⟩ := readWith_fault hread
      · exact .inl ⟨k, rest, hc, hs, hin, rfl⟩
      · exact .inr (.inl ⟨hc, hs, hi, hnone, rfl⟩)
    · cases h
    · cases h
  · exact .inr (.inr (controllerStep_fault h))

/-- Settles O39: under the invariant the slot at a readable cursor is written, and so is slot 0 at the end of a refill. -/
theorem noUnwrittenSlotIsRead : Obligations.NoUnwrittenSlotIsRead := by
  intro s j hinv hstep
  rw [step_eq_stepWith] at hstep
  obtain ⟨k, rest, _, _, _, hf⟩ | ⟨hc, hs, hi, hnone, _⟩ | ⟨i, k, hc, hi, hnone, _⟩ := stepWith_fault hstep
  · cases hf
  · have hvalid := hinv.fullWhenReadable hs hc hi s.idx hi
    simp [State.valid, hnone] at hvalid
  · obtain ⟨_, _, _, hfilled⟩ := hinv.duringRefill i k hc
    have hvalid := hfilled 0 (Nat.lt_of_lt_of_le Config.build_cap_pos hi)
    simp [State.valid, hnone] at hvalid

/-! ### Reset and `busy` (10_state.md R27, R32, 70_reset_and_hazards.md R220, R221) -/

/-- Settles O11: the values read off the state after reset. -/
theorem resetStateValues : Obligations.ResetStateValues :=
  ⟨State.reset_seeded, State.reset_ctl, (State.busy_eq_false _).2 State.reset_ctl, fun _ => rfl⟩

/-- Settles O12: a reset at the head of the inputs acts whatever the controller's state. -/
theorem resetAbandonsEverything : Obligations.ResetAbandonsEverything :=
  fun _ _ hin => stepBy_reset Config.build exec hin

/-- Settles O35: the reset state is what a reset gives with nothing left to do. -/
theorem invariantHoldsAtReset : Obligations.InvariantHoldsAtReset :=
  inv_assertReset Config.build State.reset []

/-- Settles O45: `busy` is 0 exactly at IDLE. -/
theorem busyExactlyWhenNotIdle : Obligations.BusyExactlyWhenNotIdle := fun s => by
  rw [← Bool.not_eq_false, ne_eq, State.busy_eq_false]

end Sys2Proof.Machine

/-! PROOFS. What an idle block does with the word on its port (20_memory.md R58). -/

namespace Sys2Proof.Machine

/-- Settles O6: a word that decodes to a command is that command's own, which an idle block takes from the port and runs. -/
theorem stepRunsTheDecodedCommand : Obligations.StepRunsTheDecodedCommand := by
  intro s w rest i hc hin hd
  rw [eq_encode_of_decode hd] at hin
  calc step s = stepWith Config.build s := step_eq_stepWith s
    _ = execWith Config.build i (s.setInputs rest) := stepWith_encode hc hin
    _ = exec i (s.setInputs rest) := (exec_eq_execWith i _).symm

end Sys2Proof.Machine

/-! PROOFS. The decoder against the encoder and the opcode table, and the illegal words (30_encoding.md R70 to R75). -/

namespace Sys2Proof

/-- Settles O1: the decoder reads back the encoder's words, and no other word decodes to a command. -/
theorem decodeExactlyInvertsEncode : Obligations.DecodeExactlyInvertsEncode := by
  intro c i
  constructor
  · exact eq_encode_of_decode
  · rintro rfl
    exact decode_encode i

/-- A word decodes to some INIT exactly when its op is 00, whatever its operand. -/
theorem exists_decode_init_iff (c : Command) : (∃ a, decode c = .instr (.init a)) ↔ opField c = 0b00#2 := by
  constructor
  · rintro ⟨a, h⟩
    rw [eq_encode_of_decode h, encode, opField_commandWord]
  · intro hop
    exact ⟨argField c, by simp [decode, hop]⟩

theorem decode_reservedOp_iff (c : Command) : decode c = .illegal .reservedOp ↔ opField c = 0b11#2 := by
  obtain hop | hop | hop | hop := opField_values c <;> simp [decode, hop, ite_eq_iff]

theorem decode_nonzeroArg_iff (c : Command) :
    decode c = .illegal .nonzeroArg ↔ (opField c = 0b01#2 ∨ opField c = 0b10#2) ∧ argField c ≠ 0 := by
  obtain hop | hop | hop | hop := opField_values c <;> simp [decode, hop]

/-- Settles O2: the decoder's tests for each of the four values of op. -/
theorem illegalWordsDecodeByName : Obligations.IllegalWordsDecodeByName :=
  fun c => ⟨decode_reservedOp_iff c, decode_nonzeroArg_iff c⟩

/-- Command words with the same two fields are the same. -/
theorem command_ext {c d : Command} (hop : opField c = opField d) (harg : argField c = argField d) : c = d := by
  rw [← commandWord_fields c, hop, harg, commandWord_fields]

theorem opField_and (c m : Command) : opField (c &&& m) = opField c &&& opField m := BitVec.extractLsb'_and

theorem argField_and (c m : Command) : argField (c &&& m) = argField c &&& argField m := BitVec.extractLsb'_and

/-- INIT's mask covers op alone, so INIT's row holds the words of op 00. -/
theorem holds_init_iff (c : Command) : (opcodeRow (.init 0)).holds c = true ↔ opField c = 0b00#2 := by
  have hop : opField (c &&& 0x300000000#34) = opField c := by
    rw [opField_and, show opField 0x300000000#34 = BitVec.allOnes 2 by decide, BitVec.and_allOnes]
  have harg : argField (c &&& 0x300000000#34) = 0#32 := by
    rw [argField_and, show argField 0x300000000#34 = 0#32 by decide, BitVec.and_zero]
  simp only [OpcodeRow.holds, opcodeRow, beq_iff_eq]
  constructor
  · intro h
    rw [← hop, h]
    decide
  · intro h
    exact command_ext (hop.trans h) harg

/-- The mask of a row without an operand covers the whole word: the row holds its match value alone. -/
theorem OpcodeRow.holds_iff_eq_pattern {r : OpcodeRow} (h : r.mask = BitVec.allOnes 34) (c : Command) :
    r.holds c = true ↔ c = r.pattern := by
  rw [OpcodeRow.holds, h, BitVec.and_allOnes, beq_iff_eq]

/-- Settles O3: INIT's row tests op, and each read's row holds the read's own word alone. -/
theorem opcodeRowsAgreeWithDecode : Obligations.OpcodeRowsAgreeWithDecode := by
  intro c
  rw [exists_decode_init_iff, decodeExactlyInvertsEncode, decodeExactlyInvertsEncode]
  exact ⟨holds_init_iff c, OpcodeRow.holds_iff_eq_pattern (by decide) c, OpcodeRow.holds_iff_eq_pattern (by decide) c⟩

/-- Settles O4: the decoder evaluated on the five words. -/
theorem writtenOutWordsDecode : Obligations.WrittenOutWordsDecode := by
  unfold Obligations.WrittenOutWordsDecode
  decide

/-- The port's wires carry every command word. -/
@[simp] theorem commandOfBits_toNat (c : Command) : commandOfBits c.toNat = some c := by
  simp [commandOfBits, c.isLt]

end Sys2Proof

/-! PROOFS. A presented command, an illegal word on the port, and who answers a word (30_encoding.md R73 to R77). -/

namespace Sys2Proof.Machine

/-- Presenting a command's word puts it before the host's other inputs and makes the block idle. -/
theorem State.withFetchWord_toNat (s : State) (nbits : Nat) (c : Command) :
    s.withFetchWord nbits c.toNat = { s with ctl := .idle, inputs := .cmd c :: s.inputs } := by
  simp [State.withFetchWord]

/-- Settles O7: the presented word is at the head of an idle block's inputs, and it decodes to the command. -/
theorem presentedCommandRunsNext : Obligations.PresentedCommandRunsNext := by
  intro s i nbits
  rw [State.withFetchWord_toNat]
  exact stepRunsTheDecodedCommand _ (encode i) s.inputs i rfl rfl (decode_encode i)

/-- Settles O8: the decoder names the word illegal before anything looks at the state. -/
theorem illegalWordsAreRefusedFirst : Obligations.IllegalWordsAreRefusedFirst := by
  intro s w rest hc hin
  have haccept : step s = acceptWith exec w (s.setInputs rest) := stepBy_accept Config.build exec hin hc
  constructor
  · intro hop
    rw [haccept, acceptWith, (decode_reservedOp_iff w).2 hop]
    rfl
  · intro hop harg
    rw [haccept, acceptWith, (decode_nonzeroArg_iff w).2 ⟨hop, harg⟩]
    rfl

/-- Settles O44: of the moves only a read that takes a slot and the end of a refill answer a word. -/
theorem onlyReadsRespond : Obligations.OnlyReadsRespond := by
  intro s t hstep hne
  cases move_of_step hstep with
  | take hc hin _ hi => exact ⟨⟨_, rfl⟩, .inl ⟨_, _, hc, hi, hin⟩⟩
  | done _ hc hi => exact ⟨⟨_, rfl⟩, .inr ⟨_, _, hc, hi, rfl⟩⟩
  | reset | wait | slot | init | refill => exact absurd rfl hne

end Sys2Proof.Machine

/-! PROOFS. The assembler: the words of a line, its digits and its literals (30_encoding.md R78). -/

namespace Sys2Proof.Machine

/-! ### The words of a line -/

/-- The rest of a line adds nothing to the command before it. -/
theorem assembleLine_append_rest {l rest : List Char} (hl : ';' ∉ l) (hrest : LineRest rest) :
    assembleLine (l ++ rest) = assembleWords (wordsOf l []) := by
  have htake : (l ++ rest).takeWhile (· != ';') = l := by
    rw [List.takeWhile_append_of_pos fun c hc => bne_iff_ne.2 (ne_of_mem_of_not_mem hc hl)]
    obtain rfl | ⟨c, rfl⟩ := hrest <;> simp
  rw [assembleLine, htake]

/-- Letters that are no blanks are read into the word at hand. -/
theorem wordsOf_append {l : List Char} (hl : ∀ c ∈ l, isBlank c = false) (cs acc : List Char) :
    wordsOf (l ++ cs) acc = wordsOf cs (l.reverse ++ acc) := by
  induction l generalizing acc with
  | nil => rfl
  | cons c l ih =>
    obtain ⟨hc, hl⟩ := List.forall_mem_cons.1 hl
    simp [wordsOf, hc, ih hl]

/-- A list of letters without a blank is one word. -/
theorem wordsOf_word {l : List Char} (hne : l ≠ []) (hl : ∀ c ∈ l, isBlank c = false) : wordsOf l [] = [l] := by
  have h := wordsOf_append hl [] []
  simpa [wordsOf, hne] using h

/-- `INIT`, a blank and a literal of value `n` assemble to the word of `INIT n`, if 32 bits hold `n`. -/
theorem assembleLine_init_literal {imm rest : List Char} {n : Nat} (hchars : ∀ c ∈ imm, isBlank c = false ∧ c ≠ ';')
    (hrest : LineRest rest) (hn : literalNat imm = some n) :
    assembleLine (['I', 'N', 'I', 'T', ' '] ++ imm ++ rest) =
      if n < 2 ^ 32 then .command (encode (.init (BitVec.ofNat 32 n))) else .error := by
  have hne : imm ≠ [] := by
    rintro rfl
    cases hn
  have hnocomment : ';' ∉ ['I', 'N', 'I', 'T', ' '] ++ imm := fun h =>
    (List.mem_append.1 h).elim (by decide) fun himm => (hchars ';' himm).2 rfl
  have hwords : wordsOf (['I', 'N', 'I', 'T', ' '] ++ imm) [] = [['I', 'N', 'I', 'T'], imm] :=
    congrArg (['I', 'N', 'I', 'T'] :: ·) (wordsOf_word hne fun c hc => (hchars c hc).1)
  rw [assembleLine_append_rest hnocomment hrest, hwords]
  by_cases hlt : n < 2 ^ 32 <;> simp only [assembleWords, literal32, hn, hlt, if_true, if_false]

/-- Settles O47: before the comment stands one of the three mnemonics, or nothing. -/
theorem assemblerReadsLinesWithoutLiteral : Obligations.AssemblerReadsLinesWithoutLiteral := by
  intro rest hrest
  have hword {l : List Char} (hl : ';' ∉ l) := assembleLine_append_rest hl hrest
  refine ⟨(hword ?_).trans ?_, (hword ?_).trans ?_, (hword ?_).trans ?_, (hword (l := []) ?_).trans ?_⟩ <;> decide

/-! ### Literals -/

/-- Digits written as letters that the assembler reads back have their positional value, after the `n` read before them. -/
theorem digitsValue_map {α : Type} {base : Nat} {digit : Char → Option Nat} {text : α → Char} {val : α → Nat}
    {xs : List α} (h : ∀ x ∈ xs, digit (text x) = some (val x)) (n : Nat) :
    digitsValue base digit (xs.map text) n =
      some (n * base ^ xs.length + Nat.ofDigits base (xs.map val).reverse) := by
  induction xs generalizing n with
  | nil => simp [digitsValue]
  | cons x xs ih =>
    obtain ⟨hx, hxs⟩ := List.forall_mem_cons.1 h
    simp only [List.map_cons, digitsValue, hx, ih hxs, List.reverse_cons, Nat.ofDigits_append,
      Nat.ofDigits_singleton, List.length_reverse, List.length_map, List.length_cons]
    exact congrArg some (by ring)

/-- A literal without an `x` is decimal. -/
theorem literalNat_decimal {l : List Char} (hne : l ≠ []) (hx : ∀ c ∈ l, c ≠ 'x') :
    literalNat l = digitsValue 10 decDigit l 0 := by
  unfold literalNat
  split
  · exact absurd rfl hne
  · exact absurd rfl (hx 'x' (by simp))
  · rfl

/-- A literal `0x` with a digit is hexadecimal. -/
theorem literalNat_hex {l : List Char} (hne : l ≠ []) :
    literalNat ('0' :: 'x' :: l) = digitsValue 16 hexDigit l 0 := by
  cases l with
  | nil => exact absurd rfl hne
  | cons c l => rfl

/-- The letter of a decimal digit. -/
def decimalChar (d : Nat) : Char := Char.ofNat (48 + d)

theorem decimalText_eq_map (ds : List Nat) : decimalText ds = ds.map decimalChar := rfl

/-- The letter of a hexadecimal digit, the one from 10 on small or capital. -/
def hexChar (d : Nat × Bool) : Char :=
  Char.ofNat (if d.1 < 10 then 48 + d.1 else if d.2 then 55 + d.1 else 87 + d.1)

theorem hexText_eq_map (ds : List (Nat × Bool)) : hexText ds = ds.map hexChar := rfl

theorem decDigit_decimalChar : ∀ d < 10, decDigit (decimalChar d) = some d := by decide

theorem hexDigit_hexChar : ∀ d < 16, ∀ b, hexDigit (hexChar (d, b)) = some d := by decide

/-- No decimal digit is a blank, opens a comment or makes a literal hexadecimal. -/
theorem decimalChar_ordinary :
    ∀ d < 10, (isBlank (decimalChar d) = false ∧ decimalChar d ≠ ';') ∧ decimalChar d ≠ 'x' := by decide

/-- No hexadecimal digit is a blank or opens a comment. -/
theorem hexChar_ordinary : ∀ d < 16, ∀ b, isBlank (hexChar (d, b)) = false ∧ hexChar (d, b) ≠ ';' := by decide

theorem literalNat_decimalText {ds : List Nat} (hne : ds ≠ []) (hds : ∀ d ∈ ds, d < 10) :
    literalNat (decimalText ds) = some (Nat.ofDigits 10 ds.reverse) := by
  have hx : ∀ c ∈ ds.map decimalChar, c ≠ 'x' :=
    List.forall_mem_map.2 fun d hd => (decimalChar_ordinary d (hds d hd)).2
  rw [decimalText_eq_map, literalNat_decimal (by simpa using hne) hx,
    digitsValue_map (val := id) fun d hd => decDigit_decimalChar d (hds d hd)]
  simp

theorem literalNat_hexText {ds : List (Nat × Bool)} (hne : ds ≠ []) (hds : ∀ d ∈ ds, d.1 < 16) :
    literalNat ('0' :: 'x' :: hexText ds) = some (Nat.ofDigits 16 (ds.map Prod.fst).reverse) := by
  rw [hexText_eq_map, literalNat_hex (by simpa using hne),
    digitsValue_map (val := Prod.fst) fun d hd => hexDigit_hexChar d.1 (hds d hd) d.2]
  simp

/-- Settles O5: the digits are read back one by one, and neither base's digits end the word or the line. -/
theorem assemblerReadsEveryOffset : Obligations.AssemblerReadsEveryOffset := by
  constructor
  · intro ds rest hne hds hrest
    have hchars : ∀ c ∈ decimalText ds, isBlank c = false ∧ c ≠ ';' :=
      List.forall_mem_map.2 fun d hd => (decimalChar_ordinary d (hds d hd)).1
    exact assembleLine_init_literal hchars hrest (literalNat_decimalText hne hds)
  · intro ds rest hne hds hrest
    have hdigits : ∀ c ∈ hexText ds, isBlank c = false ∧ c ≠ ';' :=
      List.forall_mem_map.2 fun d hd => hexChar_ordinary d.1 (hds d hd) d.2
    have hchars : ∀ c ∈ '0' :: 'x' :: hexText ds, isBlank c = false ∧ c ≠ ';' :=
      List.forall_mem_cons.2 ⟨by decide, List.forall_mem_cons.2 ⟨by decide, hdigits⟩⟩
    exact assembleLine_init_literal hchars hrest (literalNat_hexText hne hds)

end Sys2Proof.Machine

/-! PROOFS. What each command does and leaves unchanged (40_buffered_source.md R100 to R102, R110, R111). -/

namespace Sys2Proof.Machine

/-! ### INIT -/

/-- The seed as a number: the sum modulo 2^32 (40_buffered_source.md R101). -/
theorem seedOf_eq_ofNat (p : Params) (a : Word32) :
    seedOf p a = BitVec.ofNat 32 ((p.baseSeed.toNat + a.toNat) % 2 ^ 32) := by
  rw [seedOf, ← BitVec.toNat_add, BitVec.ofNat_toNat, BitVec.setWidth_eq]

/-- Settles O13: INIT's three updates, with the seed sum as a number. -/
theorem initSeedsTheBlock : Obligations.InitSeedsTheBlock := by
  intro a s
  rw [← seedOf_eq_ofNat]
  exact initWith_eq Config.build a s

/-- Settles O14: INIT's next state is that of no draws. -/
theorem initStartsTheStream : Obligations.InitStartsTheStream :=
  fun a _ hc => ⟨_, rfl, afterDraws_zero_of_init Config.build_cap_pos a hc⟩

/-! ### The cases of a read -/

section
variable {p : Params} {s : State}

theorem readWith_unseeded (k : ReadKind) (hs : s.seeded = false) :
    readWith p k s = .fault (.unseededRead (encode (readInstr k))) := by
  simp [readWith, hs, raiseFault]

theorem readWith_slot (k : ReadKind) (hs : s.seeded = true) (hi : s.idx < p.cap) {v : Word32}
    (hv : s.buf.read s.idx = some v) :
    readWith p k s = .next ((s.setIdx (s.idx + 1)).respond (answer p k v)) := by
  simp [readWith, hs, hi, readSlot_some hv]

theorem readWith_unwritten (k : ReadKind) (hs : s.seeded = true) (hi : s.idx < p.cap)
    (hv : s.buf.read s.idx = none) : readWith p k s = .fault (.unwrittenSlot s.idx) := by
  simp [readWith, hs, hi, readSlot, hv, raiseFault]

theorem readWith_exhausted (k : ReadKind) (hs : s.seeded = true) (hi : s.idx = p.cap) :
    readWith p k s = .next (s.setCtl (.refill 0 k)) := by
  simp [readWith, hs, hi]

end

/-- Settles O15: the cases of a read, with the word of RDU32 and the slot's word as its answer. -/
theorem readU32Result : Obligations.ReadU32Result := fun _ =>
  ⟨readWith_unseeded .u32, fun hs hi => ⟨fun _ => readWith_slot .u32 hs hi, readWith_unwritten .u32 hs hi⟩,
    readWith_exhausted .u32⟩

/-- Settles O16: the cases of a read, with the word of RDF32 and the converted slot as its answer. -/
theorem readF32Result : Obligations.ReadF32Result := fun _ =>
  ⟨readWith_unseeded .f32, fun hs hi => ⟨fun _ => readWith_slot .f32 hs hi, readWith_unwritten .f32 hs hi⟩,
    readWith_exhausted .f32⟩

/-- Settles O17: the updates of INIT, of a read that takes a slot and of a read that starts a refill. -/
theorem commandsFrame : Obligations.CommandsFrame := by
  intro i s t h
  rw [exec_eq_execWith] at h
  obtain ⟨a, rfl, rfl⟩ | ⟨k, rfl, hread⟩ := execWith_next h
  · exact ⟨fun _ => rfl, rfl, fun _ _ => ⟨rfl, rfl⟩, by simp⟩
  · have hnoinit : ∀ a, readInstr k ≠ .init a := by cases k <;> simp [readInstr]
    obtain ⟨_, ⟨v, hi, _, rfl⟩ | ⟨hi, rfl⟩⟩ := readWith_next hread
    · exact ⟨fun _ => rfl, rfl, fun a ha => absurd ha (hnoinit a),
        fun _ => ⟨rfl, rfl, fun _ => rfl, fun hle => absurd hi (Nat.not_lt.2 hle)⟩⟩
    · exact ⟨fun _ => rfl, rfl, fun a ha => absurd ha (hnoinit a),
        fun _ => ⟨rfl, rfl, fun hlt => absurd hi (Nat.not_le.2 hlt), fun _ => ⟨rfl, rfl⟩⟩⟩

/-! ### The refill's steps (40_buffered_source.md R121, R122, R124) -/

/-- Settles O18: the step writes slot i, moves the engine and counts up. -/
theorem refillSlotStepResult : Obligations.RefillSlotStepResult := by
  intro s i k hc hi hsteady
  have hstep : step s = .next (refillStep Config.build i k s) := by
    rw [step_eq_stepWith, stepWith_of_refill hc hsteady]
    simp [controllerStep, hc, hi]
  have hvalid : (s.writeSlot i (sel32 Config.build (out64 s.x))).valid i = true := by simp [State.valid_writeSlot]
  exact ⟨_, hstep, Memory.read_write_same _ _ _, hvalid, fun _ hj => Memory.read_write_other _ _ hj,
    rfl, rfl, rfl, rfl, rfl, rfl⟩

/-- The step that ends a refill answers slot 0 to the pending read. -/
theorem step_refillDone {s : State} {k : ReadKind} {v : Word32} (hc : s.ctl = .refill Config.build.cap k)
    (hsteady : HostSteady s) (hv : s.buf.read 0 = some v) :
    step s = .next (((s.setIdx 1).respond (answer Config.build k v)).setCtl .idle) := by
  have hdone : controllerStep Config.build s = refillDone Config.build k s := by simp [controllerStep, hc]
  rw [step_eq_stepWith, stepWith_of_refill hc hsteady, hdone]
  exact readSlot_some (s := s.setIdx 0) hv _

/-- Settles O19: the completion step with the answer of each kind. -/
theorem refillDoneResult : Obligations.RefillDoneResult :=
  fun _ _ hsteady hv => ⟨fun hc => step_refillDone hc hsteady hv, fun hc => step_refillDone hc hsteady hv⟩

/-- Settles O20: the slot steps and the completion compose to the atomic refill, whose next state is written out. -/
theorem refillStepsAreOneAtomicRefill : Obligations.RefillStepsAreOneAtomicRefill := by
  intro s k hc hsteady
  rw [core_run_eq_runWith, runWith_refill hc hsteady]
  refine ⟨rfl, _, atomicRefill_eq Config.build_cap_pos k s, fun j hj => ?_, fun j hj => ?_,
    rfl, rfl, rfl, rfl, rfl, rfl⟩
  · rw [fillSlots_read, if_pos hj, streamWord]
  · rw [fillSlots_read, if_neg (Nat.not_lt.2 hj)]

end Sys2Proof.Machine

/-! PROOFS. The built machine's stream (40_buffered_source.md R123, R125, R126, R128). -/

namespace Sys2Proof.Machine

/-- Settles O22: the reads answer the next words within the steps given, and the ended run stays for the rest of them. -/
theorem streamContinuesFromAnyDraw : Obligations.StreamContinuesFromAnyDraw := by
  intro e n ks s h hin
  obtain ⟨m, t, hm, hrun, hend, ht⟩ := h.reads Config.build_cap_pos hin
  rw [core_run_eq_runWith]
  exact ⟨t, runWith_of_runEnded_of_le hrun hend hm, hend, ht⟩

/-- Settles O23: the stream of any build from INIT on, at the built machine's own. -/
theorem streamFromInit : Obligations.StreamFromInit := by
  intro a ks s hc hin
  rw [core_run_eq_runWith]
  exact runWith_init_reads Config.build_cap_pos a ks hc hin

/-- `CAP + 2` steps for each of `n + 1` commands hold those of the first and those of the rest. -/
theorem add_le_enoughSteps {p : Params} {m₁ m₂ n : Nat} (h₁ : m₁ ≤ p.cap + 2) (h₂ : m₂ ≤ enoughSteps p n) :
    m₁ + m₂ ≤ enoughSteps p (n + 1) := by
  rw [enoughSteps] at h₂ ⊢
  rw [Nat.succ_mul]
  omega

/-- The first read of an eagerly filled block leaves the state of one draw. -/
theorem read_of_eagerFill {p : Params} (hp : 0 < p.cap) {e : Engine} {s : State} (hs : s.seeded = true)
    (hc : s.ctl = .idle) (hi : s.idx = 0) (hx : s.x = iterT p.cap e)
    (hslots : ∀ j < p.cap, s.buf.read j = some (streamWord p e j)) (k : ReadKind) {rest : List HostInput}
    (hin : s.inputs = .cmd (encode (readInstr k)) :: rest) :
    ∃ t, stepWith p s = .next t ∧ AfterDraws p e 1 t ∧ t.inputs = rest ∧
      t.responses = s.responses ++ [answer p k (streamWord p e 0)] := by
  have hfill : fillCount p 1 = 1 := (fillCount_eq_iff hp).2 (by omega)
  have hread : s.buf.read s.idx = some (streamWord p e 0) := by rw [hi, hslots 0 hp]
  have hlt : s.idx < p.cap := by rwa [hi]
  refine ⟨((s.setInputs rest).setIdx (s.idx + 1)).respond (answer p k (streamWord p e 0)), ?_, ?_, rfl, rfl⟩
  · rw [stepWith_encode hc hin, execWith_readInstr]
    exact readWith_slot (s := s.setInputs rest) k hs hlt hread
  · exact {
      seeded := hs
      idle := hc
      engine := by rw [hfill, Nat.one_mul]; exact hx
      cursorStart := fun h0 => absurd h0 Nat.one_ne_zero
      cursor := fun _ => by simp [hfill, hi]
      slots := fun _ j hj => by simpa [hfill] using hslots j hj }

/-- Settles O26: after its first read the eagerly filled block is where the lazily filled one is. -/
theorem lazyFillIsInvisible : Obligations.LazyFillIsInvisible := by
  intro e ks s hs hc hi hx hslots hin
  rw [core_run_eq_runWith]
  cases ks with
  | nil => exact ⟨s, runWith_of_runEnded ⟨hin, hc⟩ _, ⟨hin, hc⟩, by simp [drawWords]⟩
  | cons k ks =>
    obtain ⟨u, hstep, hu, huin, hures⟩ := read_of_eagerFill Config.build_cap_pos hs hc hi hx hslots k hin
    obtain ⟨m, t, hm, hrun, hend, _, htres⟩ := hu.reads Config.build_cap_pos huin
    have hrun' : runWith Config.build (1 + m) s = .next t := by rw [Nat.add_comm, runWith_succ_of_next hstep, hrun]
    refine ⟨t, runWith_of_runEnded_of_le hrun' hend (add_le_enoughSteps (by omega) hm), hend, ?_⟩
    rw [htres, hures, List.append_assoc]
    rfl

/-- The fills of `n` draws are used up exactly when CAP divides `n`. -/
theorem fillCount_mul_cap_eq_iff {p : Params} (hp : 0 < p.cap) {n : Nat} :
    fillCount p n * p.cap = n ↔ n % p.cap = 0 := by
  constructor
  · intro h
    rw [← h, Nat.mul_mod_left]
  · intro h
    obtain ⟨q, rfl⟩ := Nat.dvd_of_mod_eq_zero h
    rw [Nat.mul_comm p.cap q, (fillCount_eq_iff hp (f := q)).2 (by omega)]

/-- Settles O27: with a slot left the read ends at once and the current fill is not used up; otherwise it starts a refill. -/
theorem refillRunsExactlyWhenDue : Obligations.RefillRunsExactlyWhenDue := by
  intro e n k rest s h hin
  rw [step_eq_stepWith, ← fillCount_mul_cap_eq_iff Config.build_cap_pos]
  obtain ⟨hn, hi, hidx, hfill⟩ | ⟨hi, hidx, _⟩ := h.cursor_cases Config.build_cap_pos
  · obtain ⟨t, hstep, ht, _⟩ := h.read_slot hn hi hidx hfill k hin
    have hleft : fillCount Config.build n * Config.build.cap ≠ n := by
      cases hf : fillCount Config.build n with
      | zero => omega
      | succ f => rw [hf, Nat.add_sub_cancel] at hidx; rw [Nat.succ_mul]; omega
    exact ⟨t, hstep, by simp [(State.busy_eq_false t).2 ht.idle, hleft]⟩
  · refine ⟨(s.setInputs rest).setCtl (.refill 0 k), ?_, iff_of_true rfl hidx⟩
    rw [stepWith_encode h.idle hin, execWith_readInstr]
    exact readWith_exhausted k h.seeded hi

end Sys2Proof.Machine

/-! PROOFS. Any commands from an INIT on: the words they answer depend on the commands and the build, and on no slot of the
buffer (40_buffered_source.md R102, R103, R127). -/

namespace Sys2Proof.Machine

/-- A command is an INIT or a read of some kind. -/
theorem init_or_readInstr (i : Instr) : (∃ a, i = .init a) ∨ ∃ k, i = readInstr k := by
  cases i with
  | init a => exact .inl ⟨a, rfl⟩
  | rdu32 => exact .inr ⟨.u32, rfl⟩
  | rdf32 => exact .inr ⟨.f32, rfl⟩

/-- The response words of the commands `cs` on a block after `n` draws from `e`: an INIT starts its own stream at word 0. -/
def commandWords (p : Params) : Engine → Nat → List Instr → List Word32
  | _, _, [] => []
  | _, _, .init a :: cs => commandWords p (p.seedExpand (seedOf p a)) 0 cs
  | e, n, .rdu32 :: cs => answer p .u32 (streamWord p e n) :: commandWords p e (n + 1) cs
  | e, n, .rdf32 :: cs => answer p .f32 (streamWord p e n) :: commandWords p e (n + 1) cs

theorem commandWords_readInstr (p : Params) (e : Engine) (n : Nat) (k : ReadKind) (cs : List Instr) :
    commandWords p e n (readInstr k :: cs) = answer p k (streamWord p e n) :: commandWords p e (n + 1) cs := by
  cases k <;> rfl

/-- One word for each read. -/
theorem length_commandWords (p : Params) (e : Engine) (n : Nat) (cs : List Instr) :
    (commandWords p e n cs).length = cs.countP isRead := by
  induction cs generalizing e n with
  | nil => rfl
  | cons i cs ih => cases i <;> simp [commandWords, isRead, ih]

/-- The words do not depend on CAP. -/
theorem commandWords_withCap (p : Params) (c : Nat) (e : Engine) (n : Nat) (cs : List Instr) :
    commandWords { p with cap := c } e n cs = commandWords p e n cs := by
  induction cs generalizing e n with
  | nil => rfl
  | cons i cs ih =>
    obtain ⟨a, rfl⟩ | ⟨k, rfl⟩ := init_or_readInstr i
    · exact ih _ _
    · rw [commandWords_readInstr, commandWords_readInstr, ih]
      rfl

/-- A host with only commands to present never resets or pauses. -/
theorem hostSteady_of_commandInputs {s : State} {cs : List Instr} (h : s.inputs = commandInputs cs) : HostSteady s := by
  cases cs with
  | nil => exact .inl h
  | cons i cs => exact .inr ⟨_, _, h⟩

/-- INIT at an idle block: one step to the state of no draws. -/
theorem stepWith_init {p : Params} (hp : 0 < p.cap) (a : Word32) {s : State} {rest : List HostInput}
    (hc : s.ctl = .idle) (hin : s.inputs = .cmd (encode (.init a)) :: rest) :
    ∃ t, stepWith p s = .next t ∧ AfterDraws p (p.seedExpand (seedOf p a)) 0 t ∧ t.inputs = rest ∧
      t.responses = s.responses :=
  ⟨_, stepWith_encode hc hin, afterDraws_zero_of_init hp a (s := s.setInputs rest) hc, rfl, rfl⟩

/-- A list of commands after `n` draws ends its run and answers its words, with a bound on the steps it takes. -/
theorem AfterDraws.commands {p : Params} (hp : 0 < p.cap) {e : Engine} {n : Nat} {cs : List Instr} {s : State}
    (h : AfterDraws p e n s) (hin : s.inputs = commandInputs cs) :
    ∃ m t, m ≤ enoughSteps p cs.length ∧ runWith p m s = .next t ∧ RunEnded t ∧
      t.responses = s.responses ++ commandWords p e n cs := by
  induction cs generalizing e n s with
  | nil => exact ⟨0, s, Nat.zero_le _, rfl, ⟨hin, h.idle⟩, by simp [commandWords]⟩
  | cons i cs ih =>
    obtain ⟨a, rfl⟩ | ⟨k, rfl⟩ := init_or_readInstr i
    · obtain ⟨u, hstep, hu, huin, hures⟩ := stepWith_init hp a h.idle hin
      obtain ⟨m, t, hm, hrun, hend, htres⟩ := ih hu huin
      refine ⟨1 + m, t, add_le_enoughSteps (by omega) hm, ?_, hend, ?_⟩
      · rw [Nat.add_comm, runWith_succ_of_next hstep, hrun]
      · rw [htres, hures, commandWords]
    · obtain ⟨m₁, u, hm₁, hrun₁, hu, huin, hures⟩ :=
        h.read hp k hin (hostSteady_of_commandInputs (State.setInputs_inputs s (commandInputs cs)))
      obtain ⟨m₂, t, hm₂, hrun₂, hend, htres⟩ := ih hu huin
      refine ⟨m₁ + m₂, t, add_le_enoughSteps hm₁ hm₂, (runWith_add_of_next hrun₁ m₂).trans hrun₂, hend, ?_⟩
      rw [htres, hures, List.append_assoc, commandWords_readInstr]
      rfl

/-- The words of the commands from an INIT on, whatever the idle block held before. -/
theorem runWith_init_commands {p : Params} (hp : 0 < p.cap) (a : Word32) (cs : List Instr) {s : State}
    (hc : s.ctl = .idle) (hin : s.inputs = commandInputs (.init a :: cs)) :
    ∃ t, runWith p (enoughSteps p (cs.length + 1)) s = .next t ∧ RunEnded t ∧
      t.responses = s.responses ++ commandWords p (p.seedExpand (seedOf p a)) 0 cs := by
  obtain ⟨u, hstep, hu, huin, hures⟩ := stepWith_init hp a hc hin
  obtain ⟨m, t, hm, hrun, hend, htres⟩ := hu.commands hp huin
  have hrun' : runWith p (1 + m) s = .next t := by rw [Nat.add_comm, runWith_succ_of_next hstep, hrun]
  exact ⟨t, runWith_of_runEnded_of_le hrun' hend (add_le_enoughSteps (by omega) hm), hend, hures ▸ htres⟩

/-- Settles O25: both builds answer the words of the commands, which do not depend on CAP. -/
theorem streamIgnoresCapacity : Obligations.StreamIgnoresCapacity := by
  intro p c a cs s t hp hq hsc htc hsin htin
  obtain ⟨hp, _⟩ := p.wellFormed_iff.1 hp
  obtain ⟨hq, _⟩ := Params.wellFormed_iff { p with cap := c } |>.1 hq
  obtain ⟨s', hsrun, hsend, hsres⟩ := runWith_init_commands hp a cs hsc hsin
  obtain ⟨t', htrun, htend, htres⟩ := runWith_init_commands hq a cs htc htin
  rw [commandWords_withCap] at htres
  exact ⟨s', t', _, hsrun, htrun, hsend, htend, length_commandWords _ _ _ cs, hsres, htres⟩

/-- Settles O24: both blocks answer the words of the commands, which do not depend on the state before INIT. -/
theorem initErasesHistory : Obligations.InitErasesHistory := by
  intro a cs s t hsc htc hsin htin
  rw [core_run_eq_runWith, core_run_eq_runWith]
  obtain ⟨s', hsrun, hsend, hsres⟩ := runWith_init_commands Config.build_cap_pos a cs hsc hsin
  obtain ⟨t', htrun, htend, htres⟩ := runWith_init_commands Config.build_cap_pos a cs htc htin
  exact ⟨s', t', _, hsrun, htrun, hsend, htend, length_commandWords _ _ _ cs, hsres, htres⟩

end Sys2Proof.Machine

/-! PROOFS. The binary32 conversion: the words it gives as a power of two and a rounded significand, the order of the binary32
values, correct rounding and the range (40_buffered_source.md R112, R113). -/

namespace Sys2Proof.Machine

/-! ### The rounded quotient -/

theorem div_le_roundShift (m : F32Mode) (n sh : Nat) : n / 2 ^ sh ≤ roundShift m n sh := by
  cases m with
  | rtz => rw [roundShift_rtz]
  | rne => rw [roundShift_rne]; split <;> omega

theorem roundShift_le_div_succ (m : F32Mode) (n sh : Nat) : roundShift m n sh ≤ n / 2 ^ sh + 1 := by
  cases m with
  | rtz => rw [roundShift_rtz]; omega
  | rne => rw [roundShift_rne]; split <;> omega

/-- With no bits shifted out nothing is rounded. -/
@[simp] theorem roundShift_zero (m : F32Mode) (n : Nat) : roundShift m n 0 = n := by
  cases m with
  | rtz => simp [roundShift_rtz]
  | rne => simp [roundShift_rne, Nat.mod_one]

/-- A larger number has a larger quotient, or the same one with more left over. -/
theorem roundShift_mono (m : F32Mode) {a b : Nat} (sh : Nat) (h : a ≤ b) : roundShift m a sh ≤ roundShift m b sh := by
  obtain hlt | heq := Nat.lt_or_eq_of_le (Nat.div_le_div_right (c := 2 ^ sh) h)
  · exact (roundShift_le_div_succ m a sh).trans (Nat.le_trans hlt (div_le_roundShift m b sh))
  · cases m with
    | rtz => rw [roundShift_rtz, roundShift_rtz, heq]
    | rne =>
      have ha := Nat.div_add_mod a (2 ^ sh)
      have hb := Nat.div_add_mod b (2 ^ sh)
      rw [roundShift_rne, roundShift_rne, heq]
      rw [heq] at ha
      split <;> split <;> omega

/-- A multiple of `d` is `a * d`, the next one, or at least one `d` outside these two. -/
theorem mul_far_or_near (k a d : Nat) : k = a ∨ k = a + 1 ∨ k * d + d ≤ a * d ∨ a * d + 2 * d ≤ k * d := by
  rcases Nat.lt_or_ge k a with hlt | hge
  · have h := Nat.mul_le_mul_right d (Nat.succ_le_of_lt hlt)
    rw [Nat.succ_mul] at h
    omega
  · obtain rfl | rfl | hfar : k = a ∨ k = a + 1 ∨ a + 2 ≤ k := by omega
    · exact .inl rfl
    · exact .inr (.inl rfl)
    · have h := Nat.mul_le_mul_right d hfar
      rw [Nat.add_mul] at h
      omega

/-- The quotient under RNE gives a nearest multiple of the divisor, and the even one of two that are equally near. -/
theorem roundShift_rne_nearest (n sh k : Nat) :
    Nat.dist (roundShift .rne n sh * 2 ^ sh) n ≤ Nat.dist (k * 2 ^ sh) n ∧
    (k ≠ roundShift .rne n sh →
      Nat.dist (k * 2 ^ sh) n = Nat.dist (roundShift .rne n sh * 2 ^ sh) n → roundShift .rne n sh % 2 = 0) := by
  cases sh with
  | zero =>
    have hdist (hk : k ≠ n) := (Nat.dist_pos_of_ne hk).ne'
    simpa [Nat.dist_self] using fun hk h => absurd h (hdist hk)
  | succ sh =>
    have hn := Nat.div_add_mod' n (2 ^ (sh + 1))
    have hmod := Nat.mod_lt n (Nat.two_pow_pos (sh + 1))
    have hhalf : 2 ^ (sh + 1) = 2 * 2 ^ sh := by rw [Nat.pow_succ, Nat.mul_comm]
    have hk := mul_far_or_near k (n / 2 ^ (sh + 1)) (2 ^ (sh + 1))
    rw [roundShift_rne, Nat.add_sub_cancel]
    generalize n / 2 ^ (sh + 1) = a at *
    generalize n % 2 ^ (sh + 1) = b at *
    have hsucc : (a + 1) * 2 ^ (sh + 1) = a * 2 ^ (sh + 1) + 2 ^ (sh + 1) := Nat.succ_mul _ _
    unfold Nat.dist
    obtain rfl | rfl | hk | hk := hk <;> split <;> omega

/-! ### The words of a conversion -/

/-- The 24-bit significand of `n × 2^−32`, rounded; `2^24` when the rounding carries into the next power of two. -/
def significand (m : F32Mode) (n : Nat) : Nat := roundShift m (n * 2 ^ (23 - n.log2)) (n.log2 - 23)

/-- The two shifts that bring the leading bit to bit 23. -/
theorem two_pow_normalize (e : Nat) : 2 ^ e * 2 ^ (23 - e) = 2 ^ 23 * 2 ^ (e - 23) := by
  rw [← Nat.pow_add, ← Nat.pow_add]
  congr 1
  omega

/-- Before rounding the significand has 24 bits. -/
theorem normalized_bounds {n : Nat} (hn : n ≠ 0) :
    2 ^ 23 ≤ n * 2 ^ (23 - n.log2) / 2 ^ (n.log2 - 23) ∧ n * 2 ^ (23 - n.log2) / 2 ^ (n.log2 - 23) < 2 ^ 24 := by
  have hpow := two_pow_normalize n.log2
  rw [Nat.le_div_iff_mul_le (Nat.two_pow_pos _), Nat.div_lt_iff_lt_mul (Nat.two_pow_pos _), ← hpow]
  constructor
  · exact Nat.mul_le_mul_right _ (Nat.log2_self_le hn)
  · calc n * 2 ^ (23 - n.log2) < 2 ^ (n.log2 + 1) * 2 ^ (23 - n.log2) :=
          Nat.mul_lt_mul_of_pos_right Nat.lt_log2_self (Nat.two_pow_pos _)
      _ = 2 ^ 24 * 2 ^ (n.log2 - 23) := by rw [Nat.pow_succ, Nat.mul_right_comm, hpow]; omega

theorem significand_bounds (m : F32Mode) {n : Nat} (hn : n ≠ 0) :
    2 ^ 23 ≤ significand m n ∧ significand m n ≤ 2 ^ 24 := by
  obtain ⟨hlow, hhigh⟩ := normalized_bounds hn
  exact ⟨hlow.trans (div_le_roundShift m _ _), (roundShift_le_div_succ m _ _).trans hhigh⟩

/-- Below `2^24` the significand is exact. -/
theorem significand_exact (m : F32Mode) {n : Nat} (h : n.log2 ≤ 23) : significand m n = n * 2 ^ (23 - n.log2) := by
  rw [significand, Nat.sub_eq_zero_of_le h, roundShift_zero]

theorem toNat_ne_zero {u : Word32} (hu : u ≠ 0) : u.toNat ≠ 0 := by simpa [BitVec.toNat_eq] using hu

theorem log2_toNat_le {u : Word32} (hu : u ≠ 0) : u.toNat.log2 ≤ 31 :=
  Nat.le_of_lt_succ ((Nat.log2_lt (toNat_ne_zero hu)).2 u.isLt)

/-- The word of a number that is not 0: the carry of the significand goes on into the exponent. -/
theorem f32bits_toNat (m : F32Mode) {u : Word32} (hu : u ≠ 0) :
    (f32bits m u).toNat = (u.toNat.log2 + 94) * 2 ^ 23 + significand m u.toNat := by
  have he := log2_toNat_le hu
  have hn := toNat_ne_zero hu
  obtain ⟨hlow, hhigh⟩ := significand_bounds m hn
  obtain ⟨h0, _⟩ | ⟨_, hle, hf⟩ | ⟨hlt, hf⟩ := f32bits_cases m u
  · exact absurd h0 hn
  · have hexact : significand m u.toNat < 2 ^ 24 := by
      simpa [significand_exact m hle, Nat.sub_eq_zero_of_le hle] using (normalized_bounds hn).2
    rw [hf, packF32_toNat _ (by omega), ← significand_exact m hle]
    omega
  · have hq : significand m u.toNat = roundShift m u.toNat (u.toNat.log2 - 23) := by
      rw [significand, Nat.sub_eq_zero_of_le hlt.le, Nat.pow_zero, Nat.mul_one]
    rw [hf, ← hq]
    split <;> rw [packF32_toNat _ (by omega)] <;> omega

/-! ### The values of binary32 words -/

/-- A significand of 24 bits or less, at a smaller exponent, is below one of 24 bits or more. -/
theorem mul_two_pow_lt {q q' e e' : Nat} (hq : q < 2 ^ 24) (hq' : 2 ^ 23 ≤ q') (he : e < e') :
    q * 2 ^ e < q' * 2 ^ e' :=
  calc q * 2 ^ e < 2 ^ 24 * 2 ^ e := Nat.mul_lt_mul_of_pos_right hq (Nat.two_pow_pos e)
    _ = 2 ^ 23 * 2 ^ (e + 1) := by rw [Nat.pow_succ 2 e]; omega
    _ ≤ q' * 2 ^ e' := Nat.mul_le_mul hq' (Nat.pow_le_pow_right (by decide) he)

/-- The value of a word written as exponent and significand, the carry into the next power of two included. -/
theorem f32Units_of_toNat {r : Word32} {e q : Nat} (hr : r.toNat = (e + 94) * 2 ^ 23 + q) (hlow : 2 ^ 23 ≤ q)
    (hhigh : q ≤ 2 ^ 24) : f32Units r = q * 2 ^ e := by
  rw [f32Units, if_neg (by omega)]
  obtain hlt | rfl := Nat.lt_or_eq_of_le hhigh
  · have hexp : r.toNat / 2 ^ 23 - 95 = e := by omega
    have hfrac : 2 ^ 23 + r.toNat % 2 ^ 23 = q := by omega
    rw [hexp, hfrac]
  · have hexp : r.toNat / 2 ^ 23 - 95 = e + 1 := by omega
    have hfrac : 2 ^ 23 + r.toNat % 2 ^ 23 = 2 ^ 23 := by omega
    rw [hexp, hfrac, Nat.pow_succ 2 e]
    omega

/-- A word in range is zero, or it has an exponent and a significand of 24 bits. -/
theorem f32InRange_cases {w : Word32} (h : f32InRange w) :
    (w.toNat = 0 ∧ f32Units w = 0) ∨
    ∃ e q, 2 ^ 23 ≤ q ∧ q < 2 ^ 24 ∧ w.toNat = (e + 94) * 2 ^ 23 + q ∧ f32Units w = q * 2 ^ e := by
  obtain rfl | ⟨hlow, _⟩ := h
  · exact .inl ⟨rfl, rfl⟩
  · have hw : w.toNat = (w.toNat / 2 ^ 23 - 95 + 94) * 2 ^ 23 + (2 ^ 23 + w.toNat % 2 ^ 23) := by omega
    exact .inr ⟨_, _, by omega, by omega, hw, f32Units_of_toNat hw (by omega) (by omega)⟩

/-- Larger words in range have larger values. -/
theorem f32Units_lt_of_toNat_lt {v w : Word32} (hv : f32InRange v) (hw : f32InRange w) (h : v.toNat < w.toNat) :
    f32Units v < f32Units w := by
  obtain ⟨hw0, _⟩ | ⟨e', q', hlow', hhigh', hw, hwu⟩ := f32InRange_cases hw
  · omega
  obtain ⟨_, hvu⟩ | ⟨e, q, hlow, hhigh, hv, hvu⟩ := f32InRange_cases hv
  · rw [hvu, hwu]
    exact Nat.mul_pos (by omega) (Nat.two_pow_pos e')
  · rw [hvu, hwu]
    obtain he | ⟨rfl, hq⟩ : e < e' ∨ (e = e' ∧ q < q') := by omega
    · exact mul_two_pow_lt hhigh hlow' he
    · exact Nat.mul_lt_mul_of_pos_right hq (Nat.two_pow_pos e)

/-- Words in range of the same value are the same. -/
theorem eq_of_f32Units_eq {v w : Word32} (hv : f32InRange v) (hw : f32InRange w) (h : f32Units v = f32Units w) :
    v = w := by
  obtain hlt | heq | hgt := Nat.lt_trichotomy v.toNat w.toNat
  · exact absurd h (f32Units_lt_of_toNat_lt hv hw hlt).ne
  · exact BitVec.eq_of_toNat_eq heq
  · exact absurd h (f32Units_lt_of_toNat_lt hw hv hgt).ne'

/-- A word in range lies below `2^(23 + e)` units, or its value is a multiple of `2^e` units. -/
theorem f32Units_below_or_multiple {w : Word32} (hw : f32InRange w) (e : Nat) :
    f32Units w < 2 ^ 23 * 2 ^ e ∨ ∃ k, f32Units w = k * 2 ^ e := by
  obtain ⟨_, hwu⟩ | ⟨e', q, _, hhigh, _, hwu⟩ := f32InRange_cases hw
  · exact .inr ⟨0, by rw [hwu, Nat.zero_mul]⟩
  · obtain he | he := Nat.lt_or_ge e' e
    · exact .inl (hwu ▸ mul_two_pow_lt hhigh (Nat.le_refl _) he)
    · exact .inr ⟨q * 2 ^ (e' - e), by rw [hwu, Nat.mul_assoc, ← Nat.pow_add, Nat.sub_add_cancel he]⟩

/-! ### Correct rounding (R112) -/

theorem f32Units_zero : f32Units 0 = 0 := rfl

theorem f32bits_of_zero (m : F32Mode) : f32bits m 0 = 0 := rfl

theorem f32Units_f32bits (m : F32Mode) {u : Word32} (hu : u ≠ 0) :
    f32Units (f32bits m u) = significand m u.toNat * 2 ^ u.toNat.log2 := by
  obtain ⟨hlow, hhigh⟩ := significand_bounds m (toNat_ne_zero hu)
  exact f32Units_of_toNat (f32bits_toNat m hu) hlow hhigh

theorem f32bits_bounds (m : F32Mode) {u : Word32} (hu : u ≠ 0) :
    95 * 2 ^ 23 ≤ (f32bits m u).toNat ∧ (f32bits m u).toNat ≤ 127 * 2 ^ 23 := by
  obtain ⟨hlow, hhigh⟩ := significand_bounds m (toNat_ne_zero hu)
  have he := log2_toNat_le hu
  rw [f32bits_toNat m hu]
  omega

theorem f32InRange_f32bits (m : F32Mode) (u : Word32) : f32InRange (f32bits m u) := by
  by_cases hu : u = 0
  · exact .inl (hu ▸ f32bits_of_zero m)
  · obtain ⟨hlow, hhigh⟩ := f32bits_bounds m hu
    exact .inr (by omega)

/-- `n × 2^−32` in units, `n * 2 ^ 23`, brought to the leading bit that the significand has. -/
theorem normalized_mul_two_pow (n : Nat) :
    n * 2 ^ (23 - n.log2) * 2 ^ n.log2 = n * 2 ^ 23 * 2 ^ (n.log2 - 23) := by
  rw [Nat.mul_assoc, Nat.mul_comm (2 ^ (23 - n.log2)), two_pow_normalize, Nat.mul_assoc]

/-- A multiple of `2^(log2 n)` units is at most `n × 2^−32` exactly when it is at most the quotient. -/
theorem mul_two_pow_log2_le_iff (n k : Nat) : k * 2 ^ n.log2 ≤ n * 2 ^ 23 ↔ k ≤ significand .rtz n := by
  rw [significand, roundShift_rtz, Nat.le_div_iff_mul_le (Nat.two_pow_pos _),
    ← Nat.mul_le_mul_right_iff (Nat.two_pow_pos (n.log2 - 23)), ← normalized_mul_two_pow, Nat.mul_right_comm,
    Nat.mul_le_mul_right_iff (Nat.two_pow_pos n.log2)]

/-- Distances from `n × 2^−32` in units are those of the quotients, in proportion. -/
theorem dist_mul_two_pow_log2 (n k : Nat) :
    Nat.dist (k * 2 ^ n.log2) (n * 2 ^ 23) * 2 ^ (n.log2 - 23) =
      Nat.dist (k * 2 ^ (n.log2 - 23)) (n * 2 ^ (23 - n.log2)) * 2 ^ n.log2 := by
  rw [← Nat.dist_mul_right, ← Nat.dist_mul_right, normalized_mul_two_pow, Nat.mul_right_comm]

/-- The significand under RNE gives a nearest multiple of `2^(log2 n)` units, and the even one of two equally near. -/
theorem significand_rne_nearest (n k : Nat) :
    Nat.dist (significand .rne n * 2 ^ n.log2) (n * 2 ^ 23) ≤ Nat.dist (k * 2 ^ n.log2) (n * 2 ^ 23) ∧
    (k ≠ significand .rne n →
      Nat.dist (k * 2 ^ n.log2) (n * 2 ^ 23) = Nat.dist (significand .rne n * 2 ^ n.log2) (n * 2 ^ 23) →
      significand .rne n % 2 = 0) := by
  obtain ⟨hnear, htie⟩ := roundShift_rne_nearest (n * 2 ^ (23 - n.log2)) (n.log2 - 23) k
  have hpos := Nat.two_pow_pos (n.log2 - 23)
  constructor
  · rw [← Nat.mul_le_mul_right_iff hpos, dist_mul_two_pow_log2, dist_mul_two_pow_log2]
    exact Nat.mul_le_mul_right _ hnear
  · intro hk heq
    rw [← Nat.mul_left_inj hpos.ne', dist_mul_two_pow_log2, dist_mul_two_pow_log2] at heq
    exact htie hk (Nat.eq_of_mul_eq_mul_right (Nat.two_pow_pos n.log2) heq)

/-- Under RTZ the value is the largest in range that is not above `u × 2^−32`. -/
theorem f32bits_rtz_largest (u : Word32) : f32Units (f32bits .rtz u) ≤ u.toNat * 2 ^ 23 ∧
    ∀ w, f32InRange w → f32Units w ≤ u.toNat * 2 ^ 23 → f32Units w ≤ f32Units (f32bits .rtz u) := by
  by_cases hu : u = 0
  · subst hu
    exact ⟨Nat.le_refl _, fun _ _ => id⟩
  rw [f32Units_f32bits .rtz hu, mul_two_pow_log2_le_iff]
  refine ⟨Nat.le_refl _, fun w hw hle => ?_⟩
  obtain hbelow | ⟨k, hk⟩ := f32Units_below_or_multiple hw u.toNat.log2
  · exact hbelow.le.trans (Nat.mul_le_mul_right _ (significand_bounds .rtz (toNat_ne_zero hu)).1)
  · rw [hk] at hle ⊢
    exact Nat.mul_le_mul_right _ ((mul_two_pow_log2_le_iff _ k).1 hle)

/-- Under RNE no value in range is nearer to `u × 2^−32`, and the word is even if another is equally near. -/
theorem f32bits_rne_nearest {w : Word32} (u : Word32) (hw : f32InRange w) :
    Nat.dist (f32Units (f32bits .rne u)) (u.toNat * 2 ^ 23) ≤ Nat.dist (f32Units w) (u.toNat * 2 ^ 23) ∧
    (w ≠ f32bits .rne u →
      Nat.dist (f32Units w) (u.toNat * 2 ^ 23) = Nat.dist (f32Units (f32bits .rne u)) (u.toNat * 2 ^ 23) →
      (f32bits .rne u).toNat % 2 = 0) := by
  by_cases hu : u = 0
  · subst hu
    exact ⟨Nat.zero_le _, fun _ _ => rfl⟩
  have hunits := f32Units_f32bits .rne hu
  obtain hbelow | ⟨k, hk⟩ := f32Units_below_or_multiple hw u.toNat.log2
  · have hvalue : 2 ^ 23 * 2 ^ u.toNat.log2 ≤ u.toNat * 2 ^ 23 := by
      rw [Nat.mul_comm]
      exact Nat.mul_le_mul_right _ (Nat.log2_self_le (toNat_ne_zero hu))
    have hlt : Nat.dist (f32Units (f32bits .rne u)) (u.toNat * 2 ^ 23) < Nat.dist (f32Units w) (u.toNat * 2 ^ 23) := by
      rw [hunits]
      refine (significand_rne_nearest u.toNat (2 ^ 23)).1.trans_lt ?_
      rw [Nat.dist_eq_sub_of_le hvalue, Nat.dist_eq_sub_of_le (hbelow.le.trans hvalue)]
      omega
    exact ⟨hlt.le, fun _ heq => absurd heq hlt.ne'⟩
  · obtain ⟨hnear, htie⟩ := significand_rne_nearest u.toNat k
    rw [← hunits, ← hk] at hnear htie
    refine ⟨hnear, fun hne heq => ?_⟩
    have hkne : k ≠ significand .rne u.toNat := by
      rintro rfl
      exact hne (eq_of_f32Units_eq hw (f32InRange_f32bits .rne u) (hk.trans hunits.symm))
    have heven := htie hkne heq
    rw [f32bits_toNat .rne hu]
    omega

/-- The distance of two naturals as the statement writes it. -/
theorem natAbs_sub_eq_dist (a b : Nat) : ((a : Int) - b).natAbs = Nat.dist a b := by
  unfold Nat.dist
  omega

/-- Settles O33: both modes round to multiples of the same power of two; smaller exponents reach no value above it. -/
theorem f32BitsRoundsCorrectly : Obligations.F32BitsRoundsCorrectly := by
  intro u
  refine ⟨⟨f32InRange_f32bits .rtz u, f32bits_rtz_largest u⟩, f32InRange_f32bits .rne u, fun w hw => ?_⟩
  have hcast : (u.toNat : Int) * 2 ^ 23 = ((u.toNat * 2 ^ 23 : Nat) : Int) := by norm_cast
  rw [hcast, natAbs_sub_eq_dist, natAbs_sub_eq_dist]
  exact f32bits_rne_nearest u hw

/-! ### The range (R113) -/

theorem f32bits_eq_zero_iff (m : F32Mode) (u : Word32) : f32bits m u = 0 ↔ u = 0 := by
  constructor
  · intro h
    by_contra hu
    have hlow := (f32bits_bounds m hu).1
    simp [h] at hlow
  · rintro rfl
    exact f32bits_of_zero m

/-- Larger numbers have larger exponents, or larger significands at the same one. -/
theorem f32bits_mono (m : F32Mode) {u v : Word32} (h : u.toNat ≤ v.toNat) :
    (f32bits m u).toNat ≤ (f32bits m v).toNat := by
  by_cases hu : u = 0
  · subst hu
    exact Nat.zero_le _
  have hu0 := toNat_ne_zero hu
  have hv : v ≠ 0 := by
    rintro rfl
    exact hu0 (Nat.le_zero.1 h)
  have hu1 := (significand_bounds m hu0).2
  have hv1 := (significand_bounds m (toNat_ne_zero hv)).1
  rw [f32bits_toNat m hu, f32bits_toNat m hv]
  have hlog : u.toNat.log2 ≤ v.toNat.log2 := by
    rw [Nat.log2_eq_log_two, Nat.log2_eq_log_two]
    exact Nat.log_mono_right h
  obtain hlt | heq := Nat.lt_or_eq_of_le hlog
  · omega
  · have hsig : significand m u.toNat ≤ significand m v.toNat := by
      rw [significand, significand, heq]
      exact roundShift_mono m _ (Nat.mul_le_mul_right _ h)
    omega

/-- Under RNE the result is 1.0 from `0xFFFFFF80` on, the first number that rounds up to it. -/
theorem f32bits_rne_eq_one_iff (u : Word32) : f32bits .rne u = 0x3F800000#32 ↔ 0xFFFFFF80 ≤ u.toNat := by
  have hfirst : f32bits .rne 0xFFFFFF80#32 = 0x3F800000#32 := by decide
  have hbefore : f32bits .rne 0xFFFFFF7F#32 = 0x3F7FFFFF#32 := by decide
  constructor
  · intro h
    by_contra hlt
    have hle := f32bits_mono .rne (u := u) (v := 0xFFFFFF7F#32) (by simp; omega)
    simp [h, hbefore] at hle
  · intro h
    have hu : u ≠ 0 := by
      rintro rfl
      simp at h
    have hge := f32bits_mono .rne (u := 0xFFFFFF80#32) (v := u) h
    have hle := (f32bits_bounds .rne hu).2
    rw [hfirst] at hge
    exact BitVec.eq_of_toNat_eq (Nat.le_antisymm hle hge)

theorem f32bits_rtz_le (u : Word32) : (f32bits .rtz u).toNat ≤ 0x3F7FFFFF := by
  have hlast : f32bits .rtz 0xFFFFFFFF#32 = 0x3F7FFFFF#32 := by decide
  have hle := f32bits_mono .rtz (u := u) (v := 0xFFFFFFFF#32) (Nat.le_of_lt_succ u.isLt)
  rwa [hlast] at hle

/-- Below `2^24` no bit is shifted out. -/
theorem f32Units_f32bits_exact (m : F32Mode) {u : Word32} (h : u.toNat < 2 ^ 24) :
    f32Units (f32bits m u) = u.toNat * 2 ^ 23 := by
  by_cases hu : u = 0
  · subst hu
    rw [f32bits_of_zero, f32Units_zero]
    rfl
  have he : u.toNat.log2 ≤ 23 := Nat.le_of_lt_succ ((Nat.log2_lt (toNat_ne_zero hu)).2 h)
  rw [f32Units_f32bits m hu, significand_exact m he, normalized_mul_two_pow, Nat.sub_eq_zero_of_le he, Nat.pow_zero,
    Nat.mul_one]

/-- Settles O34: the bounds, monotonicity, and words evaluated at the ends of the range. -/
theorem f32BitsRange : Obligations.F32BitsRange := by
  refine ⟨fun m u => ⟨f32bits_eq_zero_iff m u, f32bits_bounds m, ?_⟩, fun m _ _ => f32bits_mono m, f32bits_rtz_le,
    by decide, f32bits_rne_eq_one_iff, fun m _ => f32Units_f32bits_exact m, fun m => ?_⟩
  · cases m <;> decide
  · refine ⟨0x01000000#32, 0x01000001#32, by decide, by decide, by decide, ?_⟩
    cases m <;> decide

end Sys2Proof.Machine

/-! PROOFS. The engine: its output, its transition and the transition's inverse, and the all-zero state
(41_xoshiro_engine.md R141 to R146). -/

namespace Sys2Proof.Machine

/-! ### The output and its halves (R141, 00_scope.md R11) -/

theorem out64_toNat (s : Engine) : (out64 s).toNat = (s.s0.toNat + s.s3.toNat) % 2 ^ 64 :=
  BitVec.toNat_add s.s0 s.s3

theorem low32_toNat (v : Word64) : (low32 v).toNat = v.toNat % 2 ^ 32 := by
  rw [low32, BitVec.extractLsb'_toNat, Nat.shiftRight_zero]

theorem high32_toNat (v : Word64) : (high32 v).toNat = v.toNat / 2 ^ 32 := by
  have hv := v.isLt
  rw [high32, BitVec.extractLsb'_toNat, Nat.shiftRight_eq_div_pow, Nat.mod_eq_of_lt (by omega)]

theorem sel32_of_low32 {p : Params} (h : p.outSel = .low32) (v : Word64) : sel32 p v = low32 v := by
  rw [sel32, h]

theorem sel32_of_high32 {p : Params} (h : p.outSel = .high32) (v : Word64) : sel32 p v = high32 v := by
  rw [sel32, h]

/-- Settles O28: the number of each operation, `sel32` being the half that `OUT_SEL` names. -/
theorem outputSumAndHalves : Obligations.OutputSumAndHalves := by
  refine fun s v p => ⟨out64_toNat s, low32_toNat v, high32_toNat v, fun h => ?_, fun h => ?_⟩
  · rw [sel32_of_low32 h, low32_toNat]
  · rw [sel32_of_high32 h, high32_toNat]

/-! ### Rotations -/

/-- A rotation is the one word that holds every bit where `rotationMovesEachBit` says. -/
theorem rotl64_eq_of_getLsbD {a b : Word64} {n : Nat} (h1 : 1 ≤ n) (hn : n ≤ 63)
    (h : ∀ i < 64, b.getLsbD ((i + n) % 64) = a.getLsbD i) : rotl64 a n = b := by
  refine BitVec.eq_of_getLsbD_eq fun j hj => ?_
  obtain ⟨i, hi, rfl⟩ : ∃ i < 64, (i + n) % 64 = j := ⟨(j + (64 - n)) % 64, by omega, by omega⟩
  rw [rotationMovesEachBit a n i h1 hn hi, h i hi]

theorem rotl64_xor (a b : Word64) {n : Nat} (h1 : 1 ≤ n) (hn : n ≤ 63) :
    rotl64 (a ^^^ b) n = rotl64 a n ^^^ rotl64 b n := by
  refine rotl64_eq_of_getLsbD h1 hn fun i hi => ?_
  rw [BitVec.getLsbD_xor, BitVec.getLsbD_xor, rotationMovesEachBit a n i h1 hn hi,
    rotationMovesEachBit b n i h1 hn hi]

/-- Two rotations that together go once round the word undo each other. -/
theorem rotl64_rotl64_of_add_eq (a : Word64) {m n : Nat} (hm : 1 ≤ m) (hn : 1 ≤ n) (h : m + n = 64) :
    rotl64 (rotl64 a m) n = a := by
  refine rotl64_eq_of_getLsbD hn (by omega) fun j hj => ?_
  obtain ⟨i, hi, rfl⟩ : ∃ i < 64, (i + m) % 64 = j := ⟨(j + n) % 64, by omega, by omega⟩
  have hround : ((i + m) % 64 + n) % 64 = i := by omega
  rw [hround, rotationMovesEachBit a m i hm (by omega) hi]

/-! ### The closed form (R143) -/

/-- With `BitVec.xor_assoc` and `BitVec.xor_comm`, `simp` puts an exclusive or of many words in one order. -/
theorem xor_xor_left_comm (a b c : Word64) : a ^^^ (b ^^^ c) = b ^^^ (a ^^^ c) := by
  rw [← BitVec.xor_assoc, BitVec.xor_comm a b, BitVec.xor_assoc]

theorem T_eq (s : Engine) :
    T s = ⟨s.s0 ^^^ s.s1 ^^^ s.s3, s.s0 ^^^ s.s1 ^^^ s.s2, s.s0 ^^^ s.s2 ^^^ (s.s1 <<< 17),
      rotl64 (s.s1 ^^^ s.s3) 45⟩ := by
  simp only [T, Engine.mk.injEq]
  simp [BitVec.xor_comm, xor_xor_left_comm]

/-- Settles O29: the closed form, and the bits of its rotation by 45. -/
theorem transitionClosedForm : Obligations.TransitionClosedForm := by
  intro s
  rw [T_eq]
  refine ⟨rfl, rfl, rfl, rfl, fun i hi => ?_⟩
  rw [rotationMovesEachBit _ 45 i (by decide) (by decide) hi, BitVec.getLsbD_xor]

/-! ### The inverse (R144) -/

/-- The `s1` that `Tinv` recovers from `y = s1 xor (s1 << 17)`: the exclusive or of `y` shifted by 0, 17, 34 and 51, the
multiples of 17 that leave a bit of the word. -/
def unshift17 (y : Word64) : Word64 := y ^^^ (y <<< 17) ^^^ (y <<< 34) ^^^ (y <<< 51)

theorem Tinv_eq (a : Engine) :
    Tinv a =
      let s0 := a.s0 ^^^ rotl64 a.s3 19
      let s1 := unshift17 (a.s1 ^^^ a.s2)
      ⟨s0, s1, a.s1 ^^^ s1 ^^^ s0, rotl64 a.s3 19 ^^^ s1⟩ := rfl

/-- `unshift17 y` and its shift by 17 share every term but `y` and `y << 68`, and `y << 68` is zero. -/
theorem unshift17_xor_shiftLeft (y : Word64) : unshift17 y ^^^ (unshift17 y <<< 17) = y := by
  have h68 : y <<< 68 = 0#64 := BitVec.shiftLeft_eq_zero (by decide)
  calc unshift17 y ^^^ (unshift17 y <<< 17)
      = unshift17 y ^^^ ((y <<< 17) ^^^ (y <<< 34) ^^^ (y <<< 51) ^^^ (y <<< 68)) := by
        simp only [unshift17, BitVec.shiftLeft_xor_distrib, ← BitVec.shiftLeft_add]
    _ = y ^^^ (((y <<< 17) ^^^ (y <<< 34) ^^^ (y <<< 51)) ^^^ ((y <<< 17) ^^^ (y <<< 34) ^^^ (y <<< 51))) := by
        rw [h68, BitVec.xor_zero, unshift17]
        simp only [BitVec.xor_assoc]
    _ = y := by rw [BitVec.xor_self, BitVec.xor_zero]

/-- `unshift17` is linear and commutes with the shift, so it undoes the shift from either side. -/
theorem unshift17_of_xor_shiftLeft (z : Word64) : unshift17 (z ^^^ (z <<< 17)) = z := by
  calc unshift17 (z ^^^ (z <<< 17)) = unshift17 z ^^^ (unshift17 z <<< 17) := by
        simp only [unshift17, BitVec.shiftLeft_xor_distrib, ← BitVec.shiftLeft_add, Nat.reduceAdd, BitVec.xor_assoc,
          xor_xor_left_comm, BitVec.xor_comm]
    _ = z := unshift17_xor_shiftLeft z

theorem Tinv_T (s : Engine) : Tinv (T s) = s := by
  obtain ⟨s0, s1, s2, s3⟩ := s
  have hu : rotl64 (rotl64 (s1 ^^^ s3) 45) 19 = s1 ^^^ s3 :=
    rotl64_rotl64_of_add_eq _ (by decide) (by decide) rfl
  have hy : s0 ^^^ s1 ^^^ s2 ^^^ (s0 ^^^ s2 ^^^ (s1 <<< 17)) = s1 ^^^ (s1 <<< 17) := by
    simp [BitVec.xor_comm, xor_xor_left_comm]
  simp only [T_eq, Tinv_eq, hu, hy, unshift17_of_xor_shiftLeft]
  simp [BitVec.xor_comm, xor_xor_left_comm]

theorem T_Tinv (a : Engine) : T (Tinv a) = a := by
  obtain ⟨a0, a1, a2, a3⟩ := a
  have hu : rotl64 (rotl64 a3 19) 45 = a3 := rotl64_rotl64_of_add_eq _ (by decide) (by decide) rfl
  have hy : a1 ^^^ (unshift17 (a1 ^^^ a2) ^^^ (unshift17 (a1 ^^^ a2) <<< 17)) = a2 := by
    rw [unshift17_xor_shiftLeft, xor_cancel_left]
  rw [Tinv_eq, T_eq]
  simp [hu, hy, BitVec.xor_assoc, BitVec.xor_comm, xor_xor_left_comm]

/-- Settles O30: the rotations by 45 and 19 undo each other, and `unshift17` undoes the shift in `s2`. -/
theorem transitionIsABijection : Obligations.TransitionIsABijection := ⟨Tinv_T, T_Tinv⟩

/-! ### Linearity (R146) -/

theorem T_xorEngine (a b : Engine) : T (xorEngine a b) = xorEngine (T a) (T b) := by
  have hrot : rotl64 ((a.s1 ^^^ b.s1) ^^^ (a.s3 ^^^ b.s3)) 45 =
      rotl64 (a.s1 ^^^ a.s3) 45 ^^^ rotl64 (b.s1 ^^^ b.s3) 45 := by
    rw [← rotl64_xor _ _ (by decide) (by decide)]
    simp only [BitVec.xor_assoc, xor_xor_left_comm b.s1]
  simp only [T_eq, xorEngine, BitVec.shiftLeft_xor_distrib, hrot]
  simp [BitVec.xor_assoc, BitVec.xor_comm, xor_xor_left_comm]

/-- Settles O32: each word of the closed form is linear; `out64` carries, as the sum `1 + 1` shows. -/
theorem transitionIsLinear : Obligations.TransitionIsLinear :=
  ⟨T_xorEngine, ⟨1, 0, 0, 0⟩, ⟨0, 0, 0, 1⟩, by decide⟩

/-! ### The all-zero state (R145) -/

@[simp] theorem T_zero : T Engine.zero = Engine.zero := by decide

theorem T_eq_zero_iff (s : Engine) : T s = Engine.zero ↔ s = Engine.zero := by
  rw [← (Function.LeftInverse.injective Tinv_T).eq_iff (a := s), T_zero]

theorem iterT_eq_zero_iff (n : Nat) (s : Engine) : iterT n s = Engine.zero ↔ s = Engine.zero := by
  induction n generalizing s with
  | zero => rfl
  | succ n ih => rw [iterT_succ, ih, T_eq_zero_iff]

theorem streamWord_of_zero (p : Params) (n : Nat) : streamWord p Engine.zero n = 0 := by
  rw [streamWord, (iterT_eq_zero_iff n Engine.zero).2 rfl, sel32]
  cases p.outSel <;> rfl

theorem answer_of_zero (p : Params) (k : ReadKind) : answer p k 0 = 0 := by
  cases k with
  | u32 => rfl
  | f32 => exact f32bits_of_zero p.f32Mode

theorem drawWords_of_zero (p : Params) (n : Nat) (ks : List ReadKind) :
    drawWords p Engine.zero n ks = List.replicate ks.length 0 := by
  induction ks generalizing n with
  | nil => rfl
  | cons k ks ih =>
    rw [drawWords, ih, streamWord_of_zero, answer_of_zero, List.length_cons, List.replicate_succ]

/-- Settles O31: `T` fixes zero and is injective, and the output, both halves and both answers of zero are zero. -/
theorem zeroStateIsAlone : Obligations.ZeroStateIsAlone := ⟨iterT_eq_zero_iff, drawWords_of_zero⟩

end Sys2Proof.Machine

/-! PROOFS. The idle block between commands, the number of steps a command takes, and what stops the machine
(60_exceptions.md R200 to R205, R214). -/

namespace Sys2Proof.Machine

/-- Settles O10: an idle block with no input is where an ended run stays. -/
theorem idleBlockHoldsItsState : Obligations.IdleBlockHoldsItsState := by
  intro s hc hin
  rw [step_eq_stepWith]
  exact stepWith_of_runEnded ⟨hin, hc⟩

/-! ### The number of steps (R205) -/

/-- Under the invariant every slot that a read can stand at has a word. -/
theorem Inv.exists_read {p : Params} {s : State} (h : Inv p s) (hs : s.seeded = true) (hc : s.ctl = .idle)
    (hi : s.idx < p.cap) : ∃ v, s.buf.read s.idx = some v :=
  Option.isSome_iff_exists.1 (h.fullWhenReadable hs hc hi s.idx hi)

section
variable {p : Params} {s : State} {k : ReadKind} {rest : List HostInput}

/-- A read with a slot left answers in one step. -/
theorem stepWith_read_slot (hc : s.ctl = .idle) (hin : s.inputs = .cmd (encode (readInstr k)) :: rest)
    (hs : s.seeded = true) (hi : s.idx < p.cap) {v : Word32} (hv : s.buf.read s.idx = some v) :
    stepWith p s = .next (((s.setInputs rest).setIdx (s.idx + 1)).respond (answer p k v)) := by
  rw [stepWith_encode hc hin, execWith_readInstr]
  exact readWith_slot (s := s.setInputs rest) k hs hi hv

/-- A read with no slot left starts a refill in one step. -/
theorem stepWith_read_exhausted (hc : s.ctl = .idle) (hin : s.inputs = .cmd (encode (readInstr k)) :: rest)
    (hs : s.seeded = true) (hi : s.idx = p.cap) :
    stepWith p s = .next ((s.setInputs rest).setCtl (.refill 0 k)) := by
  rw [stepWith_encode hc hin, execWith_readInstr]
  exact readWith_exhausted (s := s.setInputs rest) k hs hi

/-- The block is busy after each of the first `CAP + 1` steps of a read with no slot left. -/
theorem runWith_read_exhausted_busy (hc : s.ctl = .idle) (hin : s.inputs = .cmd (encode (readInstr k)) :: rest)
    (hs : s.seeded = true) (hi : s.idx = p.cap) (hrest : HostSteady (s.setInputs rest)) {n : Nat} (hn : n ≤ p.cap) :
    ∃ t, runWith p (n + 1) s = .next t ∧ t.busy = true := by
  rw [runWith_succ_of_next (stepWith_read_exhausted hc hin hs hi)]
  exact ⟨_, runWith_slotSteps (s := (s.setInputs rest).setCtl (.refill 0 k)) rfl hrest hn, rfl⟩

/-- A read with no slot left answers one word in `CAP + 2` steps: its own, the slot steps and the completion. -/
theorem runWith_read_exhausted (hp : 0 < p.cap) (hc : s.ctl = .idle)
    (hin : s.inputs = .cmd (encode (readInstr k)) :: rest) (hs : s.seeded = true) (hi : s.idx = p.cap)
    (hrest : HostSteady (s.setInputs rest)) :
    ∃ t, runWith p (p.cap + 2) s = .next t ∧ t.inputs = rest ∧ t.ctl = .idle ∧
      t.responses = s.responses ++ [answer p k (streamWord p s.x 0)] := by
  rw [runWith_succ_of_next (stepWith_read_exhausted hc hin hs hi),
    runWith_refill (s := (s.setInputs rest).setCtl (.refill 0 k)) rfl hrest, atomicRefill_eq hp]
  exact ⟨_, rfl, rfl, rfl, rfl⟩

end

/-- Settles O21: INIT and a read with a slot left are one step each; the steps of a refill leave the block busy until the
completion. -/
theorem commandsCompleteInBoundedSteps : Obligations.CommandsCompleteInBoundedSteps := by
  intro s hinv hc
  simp only [step_eq_stepWith, core_run_eq_runWith]
  refine ⟨fun a hin => ?_, fun k hs hin hi => ?_, fun k hs hin hi => ⟨fun m hpos hm => ?_, ?_⟩⟩
  · obtain ⟨t, hstep, ht, htin, hres⟩ := stepWith_init Config.build_cap_pos a hc hin
    exact ⟨t, hstep, ⟨htin, ht.idle⟩, hres⟩
  · obtain ⟨v, hv⟩ := hinv.exists_read hs hc hi
    exact ⟨_, _, stepWith_read_slot hc hin hs hi hv, ⟨rfl, hc⟩, rfl⟩
  · obtain ⟨n, rfl⟩ := Nat.exists_eq_add_of_le' hpos
    exact runWith_read_exhausted_busy hc hin hs hi (.inl rfl) (Nat.le_of_succ_le_succ hm)
  · obtain ⟨t, hrun, htin, htc, hres⟩ := runWith_read_exhausted Config.build_cap_pos hc hin hs hi (.inl rfl)
    exact ⟨t, _, hrun, ⟨htin, htc⟩, hres⟩

/-! ### Refusals (R200, R201, R204) -/

/-- The controller refuses nothing. -/
theorem controllerStep_ne_refused (p : Params) (s : State) (r : Refusal) : controllerStep p s ≠ .refused r := by
  obtain ⟨_, he⟩ | ⟨_, _, _, _, he⟩ | ⟨_, k, _, _, he⟩ := controllerStep_cases p s
  · simp [he]
  · simp [he]
  · obtain ⟨_, _, hd⟩ | ⟨_, hd⟩ := refillDone_cases p k s <;> simp [he, hd]

/-- A read refuses nothing. -/
theorem readWith_ne_refused (p : Params) (k : ReadKind) (s : State) (r : Refusal) : readWith p k s ≠ .refused r := by
  obtain ⟨_, he⟩ | ⟨_, _, _, _, he⟩ | ⟨_, _, _, he⟩ | ⟨_, _, he⟩ := readWith_cases p k s <;> simp [he]

/-- A decoded command is never refused. -/
theorem execWith_ne_refused (p : Params) (i : Instr) (s : State) (r : Refusal) : execWith p i s ≠ .refused r := by
  cases i with
  | init a => simp [execWith, initWith]
  | rdu32 => exact readWith_ne_refused p .u32 s r
  | rdf32 => exact readWith_ne_refused p .f32 s r

/-- Every refusal of a step: an illegal word at an idle block, by the decoder's name for it. -/
theorem stepWith_refused {p : Params} {s : State} {r : Refusal} (h : stepWith p s = .refused r) :
    ∃ w rest, s.ctl = .idle ∧ s.inputs = .cmd w :: rest ∧
      ((decode w = .illegal .reservedOp ∧ r = .reservedOp w) ∨
        (decode w = .illegal .nonzeroArg ∧ r = .nonzeroArg w)) := by
  obtain ⟨rest, _, he⟩ | ⟨rest, _, he⟩ | ⟨w, rest, hin, hc, he⟩ | ⟨_, he⟩ := stepBy_cases p (execWith p) s <;>
    rw [stepWith, he] at h
  · cases h
  · exact absurd h (controllerStep_ne_refused p _ r)
  · refine ⟨w, rest, hc, hin, ?_⟩
    obtain ⟨i, _, ha⟩ | ⟨hd, ha⟩ | ⟨hd, ha⟩ := acceptWith_cases (execWith p) w (s.setInputs rest) <;> rw [ha] at h
    · exact absurd h (execWith_ne_refused p i _ r)
    · cases h
      exact .inl ⟨hd, rfl⟩
    · cases h
      exact .inr ⟨hd, rfl⟩
  · exact absurd h (controllerStep_ne_refused p s r)

/-- Settles O40: the invariant rules out the faults of an unwritten slot, and only the decoder's illegal words are refused. -/
theorem nothingElseStopsTheMachine : Obligations.NothingElseStopsTheMachine := by
  intro s hinv
  constructor
  · intro f hstep
    obtain ⟨k, rest, hfault⟩ | ⟨_, _, _, _, rfl⟩ | ⟨_, _, _, _, _, rfl⟩ :=
      stepWith_fault ((step_eq_stepWith s).symm.trans hstep)
    · exact ⟨k, rest, hfault⟩
    · exact absurd hstep (noUnwrittenSlotIsRead s _ hinv)
    · exact absurd hstep (noUnwrittenSlotIsRead s _ hinv)
  · intro r hstep
    obtain ⟨w, rest, hc, hin, hr⟩ := stepWith_refused ((step_eq_stepWith s).symm.trans hstep)
    rw [decode_reservedOp_iff, decode_nonzeroArg_iff, and_assoc] at hr
    exact ⟨w, rest, hc, hin, hr⟩

end Sys2Proof.Machine

/-! PROOFS. Several instances side by side (60_exceptions.md R211, 70_reset_and_hazards.md R223). -/

namespace Sys2Proof.Machine

theorem stepInstance_getElem?_same (m : Nat) (sys : Instances) : (stepInstance m sys)[m]? = sys[m]?.map advance :=
  List.getElem?_modify_eq advance m sys

/-- A step of one instance leaves every other. -/
theorem stepInstance_getElem?_other {n m : Nat} (h : n ≠ m) (sys : Instances) : (stepInstance n sys)[m]? = sys[m]? :=
  List.getElem?_modify_ne advance sys h

/-- Settles O46: by induction on the schedule; its first step is instance `m`'s own or leaves it. -/
theorem instancesRunAlone : Obligations.InstancesRunAlone := by
  intro schedule sys m
  induction schedule generalizing sys with
  | nil => simp
  | cons n schedule ih =>
    rw [List.foldl_cons, ih]
    by_cases h : n = m
    · subst h
      rw [stepInstance_getElem?_same, Option.map_map, List.count_cons_self, Function.iterate_succ]
    · rw [stepInstance_getElem?_other h, List.count_cons_of_ne h]

end Sys2Proof.Machine

/-! PROOFS. A command presented during a refill (70_reset_and_hazards.md R224). -/

namespace Sys2Proof.Machine

/-- The controller leaves the command port. -/
theorem controllerStep_inputs {p : Params} {s t : State} (h : controllerStep p s = .next t) : t.inputs = s.inputs := by
  obtain ⟨_, rfl⟩ | ⟨_, _, _, _, rfl⟩ | ⟨_, _, _, _, _, _, rfl⟩ := controllerStep_next h <;> rfl

/-- The controller does not look at the command port: with other inputs it makes the same move. -/
theorem controllerStep_setInputs {p : Params} {s t : State} (h : controllerStep p s = .next t) (l : List HostInput) :
    controllerStep p (s.setInputs l) = .next (t.setInputs l) := by
  obtain ⟨hc, rfl⟩ | ⟨i, k, hc, hi, rfl⟩ | ⟨i, k, v, hc, hi, hv, rfl⟩ := controllerStep_next h
  · simp [controllerStep, hc]
  · simp only [controllerStep, State.setInputs_ctl, hc, if_pos hi]
    rfl
  · simp only [controllerStep, State.setInputs_ctl, hc, if_neg (Nat.not_lt.2 hi)]
    exact readSlot_some (s := (s.setInputs l).setIdx 0) hv _

/-- Settles O9: with a command on the port or with nothing there, the step of a busy block is the controller's move. -/
theorem commandWaitsWhileBusy : Obligations.CommandWaitsWhileBusy := by
  intro s t w rest hbusy hin hstep
  have hmove : controllerStep Config.build s = .next t := by
    cases hc : s.ctl with
    | idle => exact absurd hc ((busyExactlyWhenNotIdle s).1 hbusy)
    | refill i k => exact (stepBy_busy Config.build exec hin hc).symm.trans hstep
  have hquiet : step (s.setInputs []) = controllerStep Config.build (s.setInputs []) :=
    stepBy_quiet Config.build exec (State.setInputs_inputs s [])
  exact ⟨controllerStep_inputs hmove, hquiet.trans (controllerStep_setInputs hmove [])⟩

end Sys2Proof.Machine
